-- ==== Sys2Proof/Word.lean ====
section
/-! DEFINITION. The machine's word types: the byte every datum has, and the 9-bit program counter (spec 00_scope.md R6, R7; 10_state.md R22). -/

namespace Sys2Proof

/-- A byte: a register, a memory cell, an immediate, the flags register, an ALU result (R6 `WORD`, R7). -/
abbrev Byte := BitVec 8

/-- The program counter's word, 9 bits wide so that it can hold 256 (10_state.md R22, R24). -/
abbrev PcWord := BitVec 9

end Sys2Proof
end

