-- ==== Sys2Proof/Config.lean ====
section
/-! DEFINITION. What is fixed for one machine: the three parameters that 00_scope.md R6 marks "model argument" (SP_INIT, EXT_SUB, OPCODE_MAP). Their default values are in Sys2Proof/Decode.lean. The model has no free value: the spec leaves no result open. -/

namespace Sys2Proof

/-- `OPCODE_MAP` (R6, 30_encoding.md R60): one opcode byte for each of the 21 mnemonics. A field is a row of the table. -/
structure OpcodeMap where
  hlt  : Byte
  ret  : Byte
  push : Byte
  pop  : Byte
  prn  : Byte
  call : Byte
  jmp  : Byte
  jeq  : Byte
  jne  : Byte
  not  : Byte
  ldi  : Byte
  add  : Byte
  sub  : Byte
  mul  : Byte
  mod  : Byte
  cmp  : Byte
  and  : Byte
  or   : Byte
  xor  : Byte
  shl  : Byte
  shr  : Byte
  deriving DecidableEq, Repr

/-- The parameters of R6 that a model takes as arguments. R15 calls them configuration: no instruction changes one. -/
structure Config where
  /-- `SP_INIT`, the reset value of register 7 (R6, 10_state.md R36). -/
  spInit    : Byte
  /-- `EXT_SUB`, whether the decoder knows SUB (R6, 30_encoding.md R61). -/
  extSub    : Bool
  /-- `OPCODE_MAP`, the opcode bytes (R6, 30_encoding.md R60). -/
  opcodeMap : OpcodeMap
  deriving DecidableEq, Repr

end Sys2Proof
end

