-- ==== Sys2Proof/Syntax.lean ====
section
/-! DEFINITION. The instruction set as syntax: the 21 kinds, the four formats, the bytes one fetch delivers, and the instructions with their operand bytes (30_encoding.md R52, R53, R55, R56, R60; 00_scope.md R11). -/

namespace Sys2Proof

/-- The decoded kind: one of the 21 mnemonics, in the order of the table (30_encoding.md R60, R68). -/
inductive Kind where
  | hlt | ret | push | pop | prn | call | jmp | jeq | jne | not | ldi
  | add | sub | mul | mod | cmp | and | or | xor | shl | shr
  deriving DecidableEq, Repr

/-- The four instruction formats (30_encoding.md R53). -/
inductive Format where
  /-- Opcode alone. -/
  | z
  /-- Opcode, register. -/
  | r1
  /-- Opcode, register, register. -/
  | r2
  /-- Opcode, register, immediate. -/
  | ri
  deriving DecidableEq, Repr

/-- The three bytes that every fetch delivers, `b0`, `b1`, `b2` (R11, 40_cycle.md R70). They live inside one step (10_state.md R35). -/
structure Fetched where
  b0 : Byte
  b1 : Byte
  b2 : Byte
  deriving DecidableEq, Repr

/-- An instruction with its operand bytes. A register operand is the WHOLE operand byte (30_encoding.md R55): a value above 7 is an instruction too, one that raises OutOfRange when it is executed (40_cycle.md R72). -/
inductive Instr where
  | hlt
  | ret
  | push (ra : Byte)
  | pop  (ra : Byte)
  | prn  (ra : Byte)
  | call (ra : Byte)
  | jmp  (ra : Byte)
  | jeq  (ra : Byte)
  | jne  (ra : Byte)
  | not  (ra : Byte)
  | ldi  (ra imm : Byte)
  | add  (ra rb : Byte)
  | sub  (ra rb : Byte)
  | mul  (ra rb : Byte)
  | mod  (ra rb : Byte)
  | cmp  (ra rb : Byte)
  | and  (ra rb : Byte)
  | or   (ra rb : Byte)
  | xor  (ra rb : Byte)
  | shl  (ra rb : Byte)
  | shr  (ra rb : Byte)
  deriving DecidableEq, Repr

end Sys2Proof
end

