-- ==== Sys2Proof/Decode.lean ====
section
/-! DEFINITION. The opcode table, the decoder (total on any three bytes, an illegal opcode named) and after it the encoder (30_encoding.md R52 to R68). -/

namespace Sys2Proof

/-- Every kind, in the order of the table (30_encoding.md R60). -/
def Kind.all : List Kind :=
  [.hlt, .ret, .push, .pop, .prn, .call, .jmp, .jeq, .jne, .not, .ldi,
   .add, .sub, .mul, .mod, .cmp, .and, .or, .xor, .shl, .shr]

/-- The format column of the table (30_encoding.md R53, R60). -/
def Kind.format : Kind → Format
  | .hlt => .z
  | .ret => .z
  | .push => .r1
  | .pop => .r1
  | .prn => .r1
  | .call => .r1
  | .jmp => .r1
  | .jeq => .r1
  | .jne => .r1
  | .not => .r1
  | .ldi => .ri
  | .add => .r2
  | .sub => .r2
  | .mul => .r2
  | .mod => .r2
  | .cmp => .r2
  | .and => .r2
  | .or => .r2
  | .xor => .r2
  | .shl => .r2
  | .shr => .r2

/-- The length in bytes of a format (30_encoding.md R53). -/
def Format.length : Format → Nat
  | .z => 1
  | .r1 => 2
  | .r2 => 3
  | .ri => 3

/-- The length of an instruction, from its kind alone (30_encoding.md R52, R57). -/
def Kind.length (k : Kind) : Nat := k.format.length

/-- Whether a kind uses operand a as a register: every format but Z (40_cycle.md R72). -/
def Kind.usesRa (k : Kind) : Bool := decide (k.format ≠ .z)

/-- Whether a kind uses operand b as a register: format R2 alone, since LDI's third byte is its immediate (40_cycle.md R72). -/
def Kind.usesRb (k : Kind) : Bool := decide (k.format = .r2)

/-- The opcode byte that a map gives a kind: the table's opcode column (30_encoding.md R60). -/
def OpcodeMap.opcode (m : OpcodeMap) : Kind → Byte
  | .hlt => m.hlt
  | .ret => m.ret
  | .push => m.push
  | .pop => m.pop
  | .prn => m.prn
  | .call => m.call
  | .jmp => m.jmp
  | .jeq => m.jeq
  | .jne => m.jne
  | .not => m.not
  | .ldi => m.ldi
  | .add => m.add
  | .sub => m.sub
  | .mul => m.mul
  | .mod => m.mod
  | .cmp => m.cmp
  | .and => m.and
  | .or => m.or
  | .xor => m.xor
  | .shl => m.shl
  | .shr => m.shr

/-- The default opcode bytes (30_encoding.md R60). PRESUMED: the spec takes the byte values from general knowledge of LS8 (R59, decision D1, log 1). -/
def OpcodeMap.default : OpcodeMap where
  hlt  := 0x01
  ret  := 0x11
  push := 0x45
  pop  := 0x46
  prn  := 0x47
  call := 0x50
  jmp  := 0x54
  jeq  := 0x55
  jne  := 0x56
  not  := 0x69
  ldi  := 0x82
  add  := 0xA0
  sub  := 0xA1
  mul  := 0xA2
  mod  := 0xA4
  cmp  := 0xA7
  and  := 0xA8
  or   := 0xAA
  xor  := 0xAB
  shl  := 0xAC
  shr  := 0xAD

/-- The default parameters of R6: SP_INIT 244 (log 6), EXT_SUB false (log 3), the table of R60 (log 1). -/
def Config.default : Config where
  spInit    := 0xF4
  extSub    := false
  opcodeMap := OpcodeMap.default

/-- The parameters under which every row of the table decodes: the default ones with the optional row SUB on (30_encoding.md R61, log 29). -/
def Config.wholeTable : Config := { Config.default with extSub := true }

/-- The row whose opcode is the byte, if there is one (30_encoding.md R58): the whole byte is compared. -/
def OpcodeMap.kindOf? (m : OpcodeMap) (b : Byte) : Option Kind :=
  Kind.all.find? fun k => m.opcode k == b

/-- The opcode bytes that are decoded only with EXT_SUB: 0xA1 under every map (30_encoding.md R61, R68), and the byte the map gives SUB (R61, 90_conflicts.md C4). Under a map with SUB at 0xA1, the default among them, that is the one byte; the second half under another map is DEDUCED (log 28). -/
def Config.gated (c : Config) (b : Byte) : Bool := b == 0xA1 || b == c.opcodeMap.sub

/-- Whether the decoder knows a kind: with EXT_SUB every kind, without it those whose byte the option does not gate (30_encoding.md R61, R68). -/
def Config.decodes (c : Config) (k : Kind) : Bool := c.extSub || !c.gated (c.opcodeMap.opcode k)

/-- R68's `decode(b0)`: the kind of an opcode byte, or none where it is illegal (30_encoding.md R62). -/
def Config.kindOf? (c : Config) (b : Byte) : Option Kind :=
  if c.gated b && !c.extSub then none else c.opcodeMap.kindOf? b

/-- An instruction of a kind with its operand bytes in the places of its format; bytes the format does not use are dropped (30_encoding.md R53, R54). -/
def Kind.instr (k : Kind) (b1 b2 : Byte) : Instr :=
  match k with
  | .hlt => .hlt
  | .ret => .ret
  | .push => .push b1
  | .pop => .pop b1
  | .prn => .prn b1
  | .call => .call b1
  | .jmp => .jmp b1
  | .jeq => .jeq b1
  | .jne => .jne b1
  | .not => .not b1
  | .ldi => .ldi b1 b2
  | .add => .add b1 b2
  | .sub => .sub b1 b2
  | .mul => .mul b1 b2
  | .mod => .mod b1 b2
  | .cmp => .cmp b1 b2
  | .and => .and b1 b2
  | .or => .or b1 b2
  | .xor => .xor b1 b2
  | .shl => .shl b1 b2
  | .shr => .shr b1 b2

/-- What decoding answers: an instruction, or the opcode byte that no row has (30_encoding.md R62, R68). -/
inductive Decoded where
  | instr (i : Instr)
  | illegal (opcode : Byte)
  deriving DecidableEq, Repr

/-- The decoder, total on any three bytes (30_encoding.md R68). -/
def decode (c : Config) (f : Fetched) : Decoded :=
  match c.kindOf? f.b0 with
  | none => .illegal f.b0
  | some k => .instr (k.instr f.b1 f.b2)

/-- The kind of an instruction. -/
def Instr.kind : Instr → Kind
  | .hlt => .hlt
  | .ret => .ret
  | .push _ => .push
  | .pop _ => .pop
  | .prn _ => .prn
  | .call _ => .call
  | .jmp _ => .jmp
  | .jeq _ => .jeq
  | .jne _ => .jne
  | .not _ => .not
  | .ldi _ _ => .ldi
  | .add _ _ => .add
  | .sub _ _ => .sub
  | .mul _ _ => .mul
  | .mod _ _ => .mod
  | .cmp _ _ => .cmp
  | .and _ _ => .and
  | .or _ _ => .or
  | .xor _ _ => .xor
  | .shl _ _ => .shl
  | .shr _ _ => .shr

/-- The operand bytes of an instruction, in address order (30_encoding.md R52, R53, 20_memory.md R41). -/
def Instr.operands : Instr → List Byte
  | .hlt => []
  | .ret => []
  | .push ra => [ra]
  | .pop ra => [ra]
  | .prn ra => [ra]
  | .call ra => [ra]
  | .jmp ra => [ra]
  | .jeq ra => [ra]
  | .jne ra => [ra]
  | .not ra => [ra]
  | .ldi ra imm => [ra, imm]
  | .add ra rb => [ra, rb]
  | .sub ra rb => [ra, rb]
  | .mul ra rb => [ra, rb]
  | .mod ra rb => [ra, rb]
  | .cmp ra rb => [ra, rb]
  | .and ra rb => [ra, rb]
  | .or ra rb => [ra, rb]
  | .xor ra rb => [ra, rb]
  | .shl ra rb => [ra, rb]
  | .shr ra rb => [ra, rb]

/-- The encoder: the opcode at the lowest address, then operand a, then operand b (30_encoding.md R53, 20_memory.md R41). -/
def encode (c : Config) (i : Instr) : List Byte :=
  c.opcodeMap.opcode i.kind :: i.operands

/-- The first three bytes of a list, zero where the list is shorter: what a fetch delivers from bytes laid out at its address. -/
def Fetched.ofBytes (bs : List Byte) : Fetched where
  b0 := bs.getD 0 0
  b1 := bs.getD 1 0
  b2 := bs.getD 2 0

/-- The bytes of an instruction numbered as spec/opcode_table.json numbers them: bit 0 is the least significant bit of the first byte; the bits from `nbits` up are zero. -/
def Fetched.ofTableWord (nbits w : Nat) : Fetched :=
  let v := w % 2 ^ nbits
  { b0 := BitVec.ofNat 8 v, b1 := BitVec.ofNat 8 (v / 2 ^ 8), b2 := BitVec.ofNat 8 (v / 2 ^ 16) }

/-- The instruction the decoder reads from a row's word, with every row of the table decoded, SUB included (log 29). -/
def decodeTableWord (nbits w : Nat) : Option Instr :=
  match decode Config.wholeTable (Fetched.ofTableWord nbits w) with
  | .instr i => some i
  | .illegal _ => none

/-- The mnemonic of a kind (30_encoding.md R60, R65). -/
def Kind.mnemonic : Kind → String
  | .hlt => "HLT"
  | .ret => "RET"
  | .push => "PUSH"
  | .pop => "POP"
  | .prn => "PRN"
  | .call => "CALL"
  | .jmp => "JMP"
  | .jeq => "JEQ"
  | .jne => "JNE"
  | .not => "NOT"
  | .ldi => "LDI"
  | .add => "ADD"
  | .sub => "SUB"
  | .mul => "MUL"
  | .mod => "MOD"
  | .cmp => "CMP"
  | .and => "AND"
  | .or => "OR"
  | .xor => "XOR"
  | .shl => "SHL"
  | .shr => "SHR"

/-- An instruction in the spec's notation: mnemonic, registers as `R` and their number, immediates decimal, a comma between operands (30_encoding.md R65). -/
def Instr.assembly (i : Instr) : String :=
  let reg (b : Byte) : String := "R" ++ toString b.toNat
  match i.kind.format, i.operands with
  | .r1, [ra] => i.kind.mnemonic ++ " " ++ reg ra
  | .r2, [ra, rb] => i.kind.mnemonic ++ " " ++ reg ra ++ "," ++ reg rb
  | .ri, [ra, imm] => i.kind.mnemonic ++ " " ++ reg ra ++ "," ++ toString imm.toNat
  | _, _ => i.kind.mnemonic

end Sys2Proof
end

