-- ==== Sys2Proof/Machine/State.lean ====
section
/-! DEFINITION. The machine's state as plain data, its run state ST with the fault record, the reasons a step can stop, and the state after reset (10_state.md R17 to R36; 60_exceptions.md R108). -/

namespace Sys2Proof.Machine

/-- The `kind` of an OutOfRange fault (10_state.md R31, 60_exceptions.md R108). -/
inductive RangeKind where
  /-- An address above 255, from the fetch. -/
  | memory
  /-- A register operand byte above 7. -/
  | register
  /-- A stack pointer update that would leave 0 to 255. -/
  | stack
  deriving DecidableEq, Repr

/-- The fault causes of the hardware (60_exceptions.md R108). -/
inductive Cause where
  | unknownOpcode
  | outOfRange (kind : RangeKind)
  | divisionByZero
  /-- Raised by the ALU alone, and by no instruction (60_exceptions.md R114). -/
  | unsupportedOperation
  deriving DecidableEq, Repr

/-- What a fault records: its cause (with the kind of an OutOfRange) and the offending value, `ST.info`, 9 bits (10_state.md R31, 60_exceptions.md R112). -/
structure FaultRecord where
  cause : Cause
  info  : BitVec 9
  deriving DecidableEq, Repr

/-- The engine run state ST (10_state.md R31). Its numbered fields `mode`, `cause`, `kind`, `info` are views of it (Machine/HostView.lean), so no value the spec calls never produced can be written down. -/
inductive RunState where
  | running
  | halted
  | faulted (record : FaultRecord)
  deriving DecidableEq, Repr

/-- Memory: address and byte pairs in one canonical form, addresses strictly rising below 256, no entry for a cell that holds 0; an unlisted cell holds 0 (10_state.md R32, 70_reset_and_hazards.md R124). -/
abbrev Memory := List Host.Cell

/-- The whole state (10_state.md R36): registers x[0] to x[7] (R17; x[7] is SP, R19), PC (R22), FL (R26), MEM (R32), ST (R31), OUT, oldest byte first (R34). `cfg` is the model's own field: the model arguments of R6, which no instruction changes (log 27). -/
structure State where
  regs : Vector Byte 8
  pc   : PcWord
  fl   : Byte
  mem  : Memory
  st   : RunState
  out  : List Byte
  cfg  : Config
  deriving DecidableEq, Repr

/-- Why a step answers no next state. The hardware's own faults are NOT here: they are next states with ST Faulted (60_exceptions.md R109, R117). -/
inductive Fault where
  /-- Raised by `step` alone, in Halted, where the engine takes no step (40_cycle.md R69, 60_exceptions.md R118). Safe: the spec has no step there. -/
  | engineHalted
  /-- Raised by `step` alone, in Faulted, where the engine takes no step (40_cycle.md R69, 60_exceptions.md R118). Safe: the spec has no step there. -/
  | engineFaulted
  deriving DecidableEq, Repr

/-- Why the model gives no meaning. -/
inductive Refusal where
  /-- Raised by `exec` for an instruction whose meaning is not written; no arm does. Safe. -/
  | notModelled (mnemonic : String)
  /-- Raised by `launch` alone, for an image of more than 256 bytes, a failure of the loader before the core starts (70_reset_and_hazards.md R125). Safe: the spec has no run there. -/
  | imageTooLong (length : Nat)
  deriving DecidableEq, Repr

/-- The machine right after reset with the default parameters and nothing loaded (10_state.md R36, 70_reset_and_hazards.md R122): R0 to R6 zero, R7 = SP_INIT, PC 0, FL 0x00 (the spec's decision D5, log 5), memory all zero, Running, OUT empty. -/
def State.reset : State where
  regs := #v[0, 0, 0, 0, 0, 0, 0, Config.default.spInit]
  pc   := 0
  fl   := 0
  mem  := []
  st   := .running
  out  := []
  cfg  := Config.default

end Sys2Proof.Machine
end

