-- ==== Sys2Proof/Machine/Flags.lean ====
section
/-! DEFINITION. The flags register: what CMP computes and what JEQ and JNE test (10_state.md R26, R27; 42_alu.md R96). -/

namespace Sys2Proof.Machine

/-- CMP's flags, all eight bits: Equal 0x01, Greater-Than 0x02, Less-Than 0x04, on unsigned bytes (42_alu.md R96). -/
def flagsOfComparison (a b : Byte) : Byte :=
  if a.toNat = b.toNat then 0x01
  else if a.toNat > b.toNat then 0x02
  else 0x04

/-- The conditions a jump can test (10_state.md R27). -/
inductive Condition where
  | equal
  | notEqual
  deriving DecidableEq, Repr

/-- Whether a condition holds: Equal is bit 0, NotEqual its negation, not a stored bit (10_state.md R27). -/
def testFlags (fl : Byte) : Condition → Bool
  | .equal => fl.getLsbD 0
  | .notEqual => !fl.getLsbD 0

/-- `FL <- v`. -/
def State.setFlags (s : State) (v : Byte) : State := { s with fl := v }

end Sys2Proof.Machine
end

