-- ==== Sys2Proof/Machine/Operands.lean ====
section
/-! DEFINITION. The operand forms: a register operand byte with its check (30_encoding.md R55, 40_cycle.md R72), reading and writing registers (10_state.md R17 to R20), and the narrowing of exact results to a byte (00_scope.md R7). LDI's immediate is its byte unchanged (30_encoding.md R56), so it needs no operation. -/

namespace Sys2Proof.Machine

/-- A stage of an instruction: a value, or the fault it raises. Nothing of a faulting instruction is committed (40_cycle.md R75). -/
abbrev Result (α : Type) := Except FaultRecord α

/-- `raise F(info)` (00_scope.md R9). -/
def raise {α : Type} (cause : Cause) (info : Nat) : Result α :=
  .error { cause := cause, info := BitVec.ofNat 9 info }

/-- `trunc8(v) = v mod 256`, the non-negative remainder, for any integer (00_scope.md R7). -/
def trunc8 (v : Int) : Byte := BitVec.ofInt 8 v

/-- The operand check: a byte 0 to 7 names that register; any other byte is not masked and raises OutOfRange(register, byte) (30_encoding.md R55, 40_cycle.md R72). -/
def regOperand (b : Byte) : Result (Fin 8) :=
  if h : b.toNat < 8 then .ok ⟨b.toNat, h⟩ else raise (.outOfRange .register) b.toNat

/-- The operand byte that names a register. -/
def regByte (d : Fin 8) : Byte := BitVec.ofNat 8 d.val

/-- `x[i]` (00_scope.md R8). No register is hardwired (10_state.md R17). -/
def State.reg (s : State) (i : Fin 8) : Byte := s.regs.get i

/-- `x[i] <- v` (00_scope.md R8). Register 7 is written like any other (10_state.md R19). -/
def State.setReg (s : State) (i : Fin 8) (v : Byte) : State :=
  { s with regs := s.regs.set i.val v i.isLt }

/-- The register that is the stack pointer (00_scope.md R6 `SP_INDEX`, 10_state.md R19). -/
def spIndex : Fin 8 := 7

/-- `SP`, another name for `x[7]` (00_scope.md R8). -/
def State.sp (s : State) : Byte := s.reg spIndex

end Sys2Proof.Machine
end

