-- ==== Sys2Proof/Machine/Ops.lean ====
section
/-! DEFINITION. The operations the meanings share: memory (20_memory.md R38, R39), the stack pointer updates (43_stack.md R99), the next PC (40_cycle.md R74), the output (10_state.md R34), taking a fault and committing (40_cycle.md R75), the fetch (40_cycle.md R70). -/

namespace Sys2Proof.Machine

/-- What a cell holds that nothing has written: 0, "zero-initialized" (70_reset_and_hazards.md R124). -/
def blankByte : Byte := 0

/-- One byte of memory: the listed one, else the blank byte. -/
def Memory.read : Memory → Nat → Byte
  | [], _ => blankByte
  | (b, w) :: rest, a => if a = b then w else Memory.read rest a

/-- One byte stored, keeping the canonical form: writing the blank byte takes the entry out. -/
def Memory.write : Memory → Nat → Byte → Memory
  | [], a, v => if v = blankByte then [] else [(a, v)]
  | (b, w) :: rest, a, v =>
    if a < b then
      if v = blankByte then (b, w) :: rest else (a, v) :: (b, w) :: rest
    else if a = b then
      if v = blankByte then rest else (a, v) :: rest
    else (b, w) :: Memory.write rest a v

/-- The canonical form from an address up: addresses strictly rising and below 256 (20_memory.md R37), no entry holding the blank byte. -/
def Memory.wfFrom : Nat → Memory → Bool
  | _, [] => true
  | lo, (a, v) :: rest =>
    decide (lo ≤ a) && decide (a < 256) && !(v == blankByte) && Memory.wfFrom (a + 1) rest

/-- Memory is in its canonical form, so that equal memories are equal lists. -/
def Memory.wf (m : Memory) : Bool := Memory.wfFrom 0 m

/-- `MemRead(a, 1)` (20_memory.md R38). -/
def memRead (s : State) (a : Nat) : Result Byte :=
  if a ≤ 255 then .ok (s.mem.read a) else raise (.outOfRange .memory) a

/-- `MemWrite(a, 1, v)` (20_memory.md R39). -/
def memWrite (s : State) (a : Nat) (v : Byte) : Result State :=
  if a ≤ 255 then .ok { s with mem := s.mem.write a v } else raise (.outOfRange .memory) a

/-- `sp_dec()`: OutOfRange(stack, 0) where SP is 0 (43_stack.md R99; the spec's decision D8, log 8). -/
def spDec (s : State) : Result State :=
  if s.sp = 0 then raise (.outOfRange .stack) 0 else .ok (s.setReg spIndex (s.sp - 1))

/-- `sp_inc()`: OutOfRange(stack, 255) where SP, as it is now, is 255 (43_stack.md R99; the spec's decision D8, log 8). -/
def spInc (s : State) : Result State :=
  if s.sp = 255 then raise (.outOfRange .stack) 255 else .ok (s.setReg spIndex (s.sp + 1))

/-- `npc <- PC + len` in 9 bits (40_cycle.md R74, 10_state.md R24); PC is still the opcode's address (40_cycle.md R79). -/
def State.advance (s : State) (k : Kind) : State :=
  { s with pc := s.pc + BitVec.ofNat 9 k.length }

/-- `npc <- target`, a byte target widened with zeros (40_cycle.md R74, 44_control.md R102). -/
def State.jump (s : State) (target : Byte) : State :=
  { s with pc := target.zeroExtend 9 }

/-- `emit(v)`: append to OUT (00_scope.md R8, 10_state.md R34). -/
def State.emit (s : State) (v : Byte) : State := { s with out := s.out ++ [v] }

/-- TAKING A FAULT, the one way an exception is taken: ST becomes Faulted with its record; PC, registers, FL, memory and output stay (40_cycle.md R77 `fault`, 60_exceptions.md R109). There is no handler to go to and no return (R117, R118). -/
def State.takeFault (s : State) (r : FaultRecord) : State := { s with st := .faulted r }

/-- Commit: all the instruction's writes, or none of them and the fault (40_cycle.md R75). -/
def commit (s : State) (r : Result State) : Host.Outcome State Fault Refusal :=
  match r with
  | .ok t => .next t
  | .error e => .next (s.takeFault e)

/-- The fetch: three bytes at PC, PC + 1, PC + 2 whatever the instruction, each address checked, lowest first (40_cycle.md R70, 30_encoding.md R54). -/
def fetch (s : State) : Result Fetched := do
  let b0 ← memRead s s.pc.toNat
  let b1 ← memRead s (s.pc.toNat + 1)
  let b2 ← memRead s (s.pc.toNat + 2)
  .ok { b0 := b0, b1 := b1, b2 := b2 }

/-- The decode stage's fault: UnknownOpcode(b0), PC not advanced (40_cycle.md R71). -/
def raiseUnknownOpcode (s : State) (b0 : Byte) : Host.Outcome State Fault Refusal :=
  commit s (raise .unknownOpcode b0.toNat)

end Sys2Proof.Machine
end

