-- ==== Sys2Proof/Machine/Boot.lean ====
section
/-! DEFINITION. How a run starts: the loader's hand-over and the reset input (70_reset_and_hazards.md R122 to R126), and bytes placed where the next fetch reads. -/

namespace Sys2Proof.Machine

/-- The loader: the bytes in order, upward from an address (70_reset_and_hazards.md R125). -/
def Memory.load : Nat → List Byte → Memory → Memory
  | _, [], m => m
  | a, b :: bs, m => Memory.load (a + 1) bs (m.write a b)

/-- The state of R122 for given parameters and image: registers zero but SP, PC 0, FL 0x00, zeroed memory with the image from address 0, Running, OUT empty. It stands for a run only where the image has at most 256 bytes. -/
def State.boot (c : Config) (image : List Byte) : State where
  regs := #v[0, 0, 0, 0, 0, 0, 0, c.spInit]
  pc   := 0
  fl   := 0
  mem  := Memory.load 0 image []
  st   := .running
  out  := []
  cfg  := c

/-- Launching a program: an image longer than memory is the loader's failure, before the core starts (70_reset_and_hazards.md R125). -/
def launch (c : Config) (image : List Byte) : Host.Outcome State Fault Refusal :=
  if image.length ≤ 256 then .next (State.boot c image) else .refused (.imageTooLong image.length)

/-- The reset input, from any state, Halted and Faulted included, with a freshly loaded image (70_reset_and_hazards.md R123). The parameters are the machine's and stay. -/
def State.resetInput (s : State) (image : List Byte) : Host.Outcome State Fault Refusal :=
  launch s.cfg image

/-- Bytes stored upward from an address, those above 255 dropped: the loader's store, used to place a word at PC. -/
def Memory.place (m : Memory) (a : Nat) : List Byte → Memory
  | [] => m
  | b :: bs => Memory.place (if a ≤ 255 then m.write a b else m) (a + 1) bs

/-- A fetched word placed at PC, with EXT_SUB on where the option gates its opcode byte, which alone lets the decoder read it (30_encoding.md R61, R68, log 29). -/
def State.placeAtPc (s : State) (f : Fetched) : State :=
  { s with
    mem := s.mem.place s.pc.toNat [f.b0, f.b1, f.b2]
    cfg := { s.cfg with extSub := s.cfg.extSub || s.cfg.gated f.b0 } }

end Sys2Proof.Machine
end

