-- ==== Sys2Proof/Machine/Alu.lean ====
section
/-! DEFINITION. The ALU as one function of an operation and two bytes (42_alu.md R84, R85), and the eleven instructions over it (R86 to R96). -/

namespace Sys2Proof.Machine

/-- What the ALU answers: a result byte, new flags, or a cause of fault (42_alu.md R84, R85). -/
inductive AluAnswer where
  | value (v : Byte)
  | flags (fl : Byte)
  | fails (cause : Cause)
  deriving DecidableEq, Repr

/-- The ALU (42_alu.md R84): operands are unsigned (R98), computed exactly and narrowed by `trunc8` (the spec's decision D2, log 2). The shift amount is the whole byte (R94, R95; D18, log 18). An operation outside the set fails with UnsupportedOperation (R85): no instruction asks for one. -/
def alu (op : Kind) (a b : Byte) : AluAnswer :=
  match op with
  | .add => .value (trunc8 ((a.toNat : Int) + (b.toNat : Int)))
  | .sub => .value (trunc8 ((a.toNat : Int) - (b.toNat : Int)))
  | .mul => .value (trunc8 ((a.toNat : Int) * (b.toNat : Int)))
  | .mod => if b = 0 then .fails .divisionByZero else .value (trunc8 ((a.toNat % b.toNat : Nat) : Int))
  | .and => .value (a &&& b)
  | .or  => .value (a ||| b)
  | .xor => .value (a ^^^ b)
  | .not => .value (~~~a)
  | .shl => .value (trunc8 ((a.toNat <<< b.toNat : Nat) : Int))
  | .shr => .value (trunc8 ((a.toNat >>> b.toNat : Nat) : Int))
  | .cmp => .flags (flagsOfComparison a b)
  | .hlt | .ret | .push | .pop | .prn | .call | .jmp | .jeq | .jne | .ldi => .fails .unsupportedOperation

/-- `ST.info` of the ALU's faults: the divisor's register index for DivisionByZero, 0 for UnsupportedOperation (60_exceptions.md R108, 90_conflicts.md C17). -/
def aluFaultInfo (cause : Cause) (rb : Byte) : Nat :=
  match cause with
  | .divisionByZero => rb.toNat
  | .unknownOpcode | .outOfRange _ | .unsupportedOperation => 0

/-- Write the ALU's answer back: a value into register a, flags into FL, a fault raised (42_alu.md R84). -/
def aluWriteBack (op : Kind) (d : Fin 8) (rb : Byte) (answer : AluAnswer) (s : State) : Result State :=
  match answer with
  | .value v => .ok ((s.setReg d v).advance op)
  | .flags fl => .ok ((s.setFlags fl).advance op)
  | .fails cause => raise cause (aluFaultInfo cause rb)

/-- An ALU instruction of format R2: check ra then rb, read both, compute, write back (42_alu.md R84, 40_cycle.md R72, R73). -/
def aluBinary (op : Kind) (ra rb : Byte) (s : State) : Result State := do
  let d ← regOperand ra
  let e ← regOperand rb
  aluWriteBack op d rb (alu op (s.reg d) (s.reg e)) s

/-- An ALU instruction of format R1: one operand, the second fetched byte ignored (42_alu.md R93, 90_conflicts.md C12). The ALU's second input is not used by the operation. -/
def aluUnary (op : Kind) (ra : Byte) (s : State) : Result State := do
  let d ← regOperand ra
  aluWriteBack op d 0 (alu op (s.reg d) 0) s

/-- ADD: `x[ra] <- trunc8(A + B)` (42_alu.md R86). -/
def execAdd (ra rb : Byte) (s : State) : Host.Outcome State Fault Refusal :=
  commit s (aluBinary .add ra rb s)

/-- SUB: `x[ra] <- trunc8(A - B)` (42_alu.md R87). The decoder alone decides whether 0xA1 is SUB (30_encoding.md R61). -/
def execSub (ra rb : Byte) (s : State) : Host.Outcome State Fault Refusal :=
  commit s (aluBinary .sub ra rb s)

/-- MUL: `x[ra] <- trunc8(A * B)` (42_alu.md R88). -/
def execMul (ra rb : Byte) (s : State) : Host.Outcome State Fault Refusal :=
  commit s (aluBinary .mul ra rb s)

/-- MOD: `x[ra] <- A % B`, DivisionByZero(rb) where B is 0 (42_alu.md R89). -/
def execMod (ra rb : Byte) (s : State) : Host.Outcome State Fault Refusal :=
  commit s (aluBinary .mod ra rb s)

/-- AND: `x[ra] <- A & B` (42_alu.md R90). -/
def execAnd (ra rb : Byte) (s : State) : Host.Outcome State Fault Refusal :=
  commit s (aluBinary .and ra rb s)

/-- OR: `x[ra] <- A | B` (42_alu.md R91). -/
def execOr (ra rb : Byte) (s : State) : Host.Outcome State Fault Refusal :=
  commit s (aluBinary .or ra rb s)

/-- XOR: `x[ra] <- A ^ B` (42_alu.md R92). -/
def execXor (ra rb : Byte) (s : State) : Host.Outcome State Fault Refusal :=
  commit s (aluBinary .xor ra rb s)

/-- NOT: `x[ra] <- ~A` (42_alu.md R93). -/
def execNot (ra : Byte) (s : State) : Host.Outcome State Fault Refusal :=
  commit s (aluUnary .not ra s)

/-- SHL: `x[ra] <- trunc8(A << B)` (42_alu.md R94). -/
def execShl (ra rb : Byte) (s : State) : Host.Outcome State Fault Refusal :=
  commit s (aluBinary .shl ra rb s)

/-- SHR: `x[ra] <- A >> B` (42_alu.md R95). -/
def execShr (ra rb : Byte) (s : State) : Host.Outcome State Fault Refusal :=
  commit s (aluBinary .shr ra rb s)

/-- CMP: FL written in full, no register (42_alu.md R96). -/
def execCmp (ra rb : Byte) (s : State) : Host.Outcome State Fault Refusal :=
  commit s (aluBinary .cmp ra rb s)

end Sys2Proof.Machine
end

