-- ==== Sys2Proof/Machine/Stack.lean ====
section
/-! DEFINITION. The stack instructions PUSH and POP (43_stack.md R99 to R101). -/

namespace Sys2Proof.Machine

/-- `sp_dec(); MemWrite(x[7], 1, v)`: what PUSH and CALL share (43_stack.md R100, 44_control.md R103). -/
def pushByte (v : Byte) (s : State) : Result State := do
  let t ← spDec s
  memWrite t t.sp.toNat v

/-- PUSH: the operand is read before SP moves, so `PUSH R7` stores the old SP (43_stack.md R100; the spec's decision D10, log 10). -/
def execPush (ra : Byte) (s : State) : Host.Outcome State Fault Refusal :=
  commit s do
    let d ← regOperand ra
    let t ← pushByte (s.reg d) s
    .ok (t.advance .push)

/-- POP: the register is written, THEN SP as it is by now goes up, so `POP R7` leaves the popped byte + 1 (43_stack.md R101; the spec's decision D10, log 10). -/
def execPop (ra : Byte) (s : State) : Host.Outcome State Fault Refusal :=
  commit s do
    let d ← regOperand ra
    let v ← memRead s s.sp.toNat
    let t ← spInc (s.setReg d v)
    .ok (t.advance .pop)

end Sys2Proof.Machine
end

