-- ==== Sys2Proof/Machine/Control.lean ====
section
/-! DEFINITION. Control transfer: CALL, RET, JMP, JEQ, JNE (44_control.md R102 to R107). -/

namespace Sys2Proof.Machine

/-- CALL's return address, `PC + 2`, a byte (44_control.md R103). -/
def returnAddress (s : State) : Byte := trunc8 ((s.pc.toNat + Kind.call.length : Nat) : Int)

/-- CALL: the return address pushed, then PC the target as read before SP moved (44_control.md R103; the spec's decision D10, log 10). -/
def execCall (ra : Byte) (s : State) : Host.Outcome State Fault Refusal :=
  commit s do
    let d ← regOperand ra
    let t ← pushByte (returnAddress s) s
    .ok (t.jump (s.reg d))

/-- RET: PC the byte at SP, SP up by one (44_control.md R104). -/
def execRet (s : State) : Host.Outcome State Fault Refusal :=
  commit s do
    let v ← memRead s s.sp.toNat
    let t ← spInc s
    .ok (t.jump v)

/-- JMP: PC the register's byte (44_control.md R105). -/
def execJmp (ra : Byte) (s : State) : Host.Outcome State Fault Refusal :=
  commit s do
    let d ← regOperand ra
    .ok (s.jump (s.reg d))

/-- A conditional jump: the operand is checked whether or not the jump is taken (44_control.md R106, R107; 40_cycle.md R72). -/
def jumpIf (cond : Condition) (k : Kind) (ra : Byte) (s : State) : Result State := do
  let d ← regOperand ra
  if testFlags s.fl cond then .ok (s.jump (s.reg d)) else .ok (s.advance k)

/-- JEQ: taken where bit E is 1 (44_control.md R106). -/
def execJeq (ra : Byte) (s : State) : Host.Outcome State Fault Refusal :=
  commit s (jumpIf .equal .jeq ra s)

/-- JNE: taken where bit E is 0 (44_control.md R107). -/
def execJne (ra : Byte) (s : State) : Host.Outcome State Fault Refusal :=
  commit s (jumpIf .notEqual .jne ra s)

end Sys2Proof.Machine
end

