-- ==== Sys2Proof/Machine/DataIo.lean ====
section
/-! DEFINITION. Load-immediate, output and halt: LDI, PRN, HLT (41_data_io.md R81 to R83). -/

namespace Sys2Proof.Machine

/-- LDI: `x[ra] <- imm` (41_data_io.md R81). -/
def execLdi (ra imm : Byte) (s : State) : Host.Outcome State Fault Refusal :=
  commit s do
    let d ← regOperand ra
    .ok ((s.setReg d imm).advance .ldi)

/-- PRN: `emit(A)` (41_data_io.md R82). -/
def execPrn (ra : Byte) (s : State) : Host.Outcome State Fault Refusal :=
  commit s do
    let d ← regOperand ra
    .ok ((s.emit (s.reg d)).advance .prn)

/-- HLT: `ST <- Halted`, PC unchanged (41_data_io.md R83; the spec's decision D12, log 12). -/
def execHlt (s : State) : Host.Outcome State Fault Refusal :=
  commit s (.ok { s with st := .halted })

end Sys2Proof.Machine
end

