-- ==== Sys2Proof/Machine/Step.lean ====
section
/-! DEFINITION. One step of the engine: the whole of 40_cycle.md R77, and the word placed where the next step fetches. -/

namespace Sys2Proof.Machine

/-- One step (40_cycle.md R77): none in Halted or Faulted (R69); fetch (R70), decode (R71), then the instruction (R72 to R75). -/
def step (s : State) : Host.Outcome State Fault Refusal :=
  match s.st with
  | .halted => .fault .engineHalted
  | .faulted _ => .fault .engineFaulted
  | .running =>
    match fetch s with
    | .error r => commit s (.error r)
    | .ok f =>
      match decode s.cfg f with
      | .illegal b0 => raiseUnknownOpcode s b0
      | .instr i => exec i s

/-- The state with a table word stored where `step` fetches its next instruction: the loader's hand-over for one instruction (log 16, log 29). -/
def State.withFetchWord (s : State) (nbits w : Nat) : State :=
  s.placeAtPc (Fetched.ofTableWord nbits w)

end Sys2Proof.Machine
end

