-- ==== Sys2Proof/Machine/HostView.lean ====
section
/-! DEFINITION. What the host sees of a run: the fields of ST by number (10_state.md R31, 60_exceptions.md R108), the termination status (R120), the end of a run (00_scope.md R16), and the host's view of a state (70_reset_and_hazards.md R134). -/

namespace Sys2Proof.Machine

/-- `ST.mode`: 0 Running, 1 Halted, 2 Faulted (10_state.md R31). -/
def RunState.mode : RunState → BitVec 2
  | .running => 0
  | .halted => 1
  | .faulted _ => 2

/-- The number of a cause (60_exceptions.md R108). -/
def Cause.code : Cause → BitVec 3
  | .unknownOpcode => 1
  | .outOfRange _ => 2
  | .divisionByZero => 3
  | .unsupportedOperation => 4

/-- The number of a cause's kind: 0 memory, 1 register, 2 stack, and 0 for every other cause (10_state.md R31, 60_exceptions.md R108). -/
def Cause.kindCode : Cause → BitVec 2
  | .outOfRange .memory => 0
  | .outOfRange .register => 1
  | .outOfRange .stack => 2
  | .unknownOpcode => 0
  | .divisionByZero => 0
  | .unsupportedOperation => 0

/-- `ST.cause`: 0 outside Faulted (10_state.md R31). -/
def RunState.cause : RunState → BitVec 3
  | .running => 0
  | .halted => 0
  | .faulted r => r.cause.code

/-- `ST.kind`: 0 outside Faulted (10_state.md R31). -/
def RunState.kind : RunState → BitVec 2
  | .running => 0
  | .halted => 0
  | .faulted r => r.cause.kindCode

/-- `ST.info`: 0 outside Faulted (10_state.md R31). -/
def RunState.info : RunState → BitVec 9
  | .running => 0
  | .halted => 0
  | .faulted r => r.info

/-- The termination status handed to the host (60_exceptions.md R120). -/
inductive Status where
  | success
  | failure (cause : Cause)
  deriving DecidableEq, Repr

/-- Halted is success, Faulted a failure with its cause; a Running engine has no status yet (60_exceptions.md R120). -/
def RunState.status? : RunState → Option Status
  | .running => none
  | .halted => some .success
  | .faulted r => some (.failure r.cause)

/-- The run has ended: ST is Halted or Faulted (00_scope.md R16). -/
def State.ended (s : State) : Bool := s.st.status?.isSome

/-- What the host may read at the end of a run: ST, PC, the registers, FL and memory (70_reset_and_hazards.md R134; the spec's decisions D14, D29, log 14). -/
structure FinalReading where
  st   : RunState
  pc   : PcWord
  regs : Vector Byte 8
  fl   : Byte
  mem  : Memory
  deriving DecidableEq, Repr

/-- What the host sees of a state: OUT, and once the run has ended the final reading (70_reset_and_hazards.md R134). -/
structure HostView where
  out   : List Byte
  final : Option FinalReading
  deriving DecidableEq, Repr

/-- The final reading of a state. -/
def State.finalReading (s : State) : FinalReading where
  st   := s.st
  pc   := s.pc
  regs := s.regs
  fl   := s.fl
  mem  := s.mem

/-- The host's view: during a run only OUT, at its end also ST, PC, the registers, FL and memory (70_reset_and_hazards.md R134). The parameters are the machine's configuration (00_scope.md R15) and no part of it. -/
def State.hostView (s : State) : HostView where
  out   := s.out
  final := if s.ended then some s.finalReading else none

end Sys2Proof.Machine
end

