-- ==== Sys2Proof/WellFormed.lean ====
section
/-! DEFINITION. Which instructions and which parameters are well formed: register operands in 0 to 7 (30_encoding.md R55), SUB only with EXT_SUB (R61), an opcode map that gives no byte to two rows (R58). -/

namespace Sys2Proof

/-- A register operand byte that names a register (30_encoding.md R55). -/
def regByteOk (b : Byte) : Bool := decide (b.toNat ≤ 7)

/-- Every register operand of an instruction names a register; LDI's immediate is any byte (40_cycle.md R72, 41_data_io.md R81). -/
def Instr.registersOk : Instr → Bool
  | .hlt => true
  | .ret => true
  | .push ra => regByteOk ra
  | .pop ra => regByteOk ra
  | .prn ra => regByteOk ra
  | .call ra => regByteOk ra
  | .jmp ra => regByteOk ra
  | .jeq ra => regByteOk ra
  | .jne ra => regByteOk ra
  | .not ra => regByteOk ra
  | .ldi ra _ => regByteOk ra
  | .add ra rb => regByteOk ra && regByteOk rb
  | .sub ra rb => regByteOk ra && regByteOk rb
  | .mul ra rb => regByteOk ra && regByteOk rb
  | .mod ra rb => regByteOk ra && regByteOk rb
  | .cmp ra rb => regByteOk ra && regByteOk rb
  | .and ra rb => regByteOk ra && regByteOk rb
  | .or ra rb => regByteOk ra && regByteOk rb
  | .xor ra rb => regByteOk ra && regByteOk rb
  | .shl ra rb => regByteOk ra && regByteOk rb
  | .shr ra rb => regByteOk ra && regByteOk rb

/-- The instruction is one this machine's decoder knows (30_encoding.md R61) and its registers exist (R55). -/
def Instr.wellFormed (c : Config) (i : Instr) : Bool :=
  c.decodes i.kind && i.registersOk

/-- No two rows of the map share an opcode byte: "Exactly one row matches or none does" (30_encoding.md R58). -/
def OpcodeMap.distinct (m : OpcodeMap) : Bool :=
  decide ((Kind.all.map m.opcode).Nodup)

/-- The parameters are usable: the opcode map is unambiguous. Any SP_INIT and either EXT_SUB will do (00_scope.md R6). -/
def Config.wf (c : Config) : Bool := c.opcodeMap.distinct

end Sys2Proof
end

