-- ==== Sys2Proof/Safety.lean ====
section
/-! DEFINITION. The terms the statements use: the machine's invariant, what a step leaves alone, the instruction at PC, when a step raises a fault, and a successful run. -/

namespace Sys2Proof.Machine

/-- The values FL can have: 0x00 until the first CMP, then 0x01, 0x02 or 0x04 (10_state.md R28). -/
def flagsLegal (fl : Byte) : Prop := fl = 0x00 ∨ fl = 0x01 ∨ fl = 0x02 ∨ fl = 0x04

/-- A fault record is one of the rows of 60_exceptions.md R108, and an UnknownOpcode's byte is one the decoder calls illegal. UnsupportedOperation never stands in one (R114). -/
def recordLegal (c : Config) (r : FaultRecord) : Prop :=
  match r.cause with
  | .unknownOpcode => ∃ b : Byte, c.kindOf? b = none ∧ r.info.toNat = b.toNat
  | .outOfRange .memory => r.info.toNat = 256
  | .outOfRange .register => 8 ≤ r.info.toNat ∧ r.info.toNat ≤ 255
  | .outOfRange .stack => r.info.toNat = 0 ∨ r.info.toNat = 255
  | .divisionByZero => r.info.toNat ≤ 7
  | .unsupportedOperation => False

/-- The machine's invariant: memory in its canonical form, PC in 0 to 256 (10_state.md R22), a legal FL (R28), and a legal fault record (60_exceptions.md R108). -/
structure State.Inv (s : State) : Prop where
  memory : s.mem.wf = true
  pc     : s.pc.toNat ≤ 256
  flags  : flagsLegal s.fl
  record : ∀ r, s.st = .faulted r → recordLegal s.cfg r

/-- The three bytes at PC, PC + 1, PC + 2. -/
def State.bytesAtPc (s : State) : Fetched where
  b0 := s.mem.read s.pc.toNat
  b1 := s.mem.read (s.pc.toNat + 1)
  b2 := s.mem.read (s.pc.toNat + 2)

/-- The instruction `i` is what the engine executes in this step: Running, all three bytes in memory, and they decode to it (40_cycle.md R69 to R71). -/
def State.executes (s : State) (i : Instr) : Prop :=
  s.st = .running ∧ s.pc.toNat + 2 ≤ 255 ∧ decode s.cfg s.bytesAtPc = .instr i

/-- The fault an instruction raises after its operand check: MOD by a register that holds 0, PUSH and CALL with SP 0, POP and RET where `sp_inc` reads 255, for POP R7 the popped byte (60_exceptions.md R108, 43_stack.md R101; the stack bounds are the spec's decision D8, log 8). -/
def raisesOwnFault (i : Instr) (s : State) : Prop :=
  match i with
  | .mod _ rb => ∃ e : Fin 8, rb = regByte e ∧ s.reg e = 0
  | .push _ | .call _ => s.sp = 0
  | .pop ra => (if ra = regByte 7 then s.mem.read s.sp.toNat else s.sp) = 255
  | .ret => s.sp = 255
  | .hlt | .prn _ | .jmp _ | .jeq _ | .jne _ | .not _ | .ldi _ _ | .add _ _ | .sub _ _ | .mul _ _ | .cmp _ _
  | .and _ _ | .or _ _ | .xor _ _ | .shl _ _ | .shr _ _ => False

/-- The step of a Running engine raises a fault: the fetch leaves memory, the opcode byte is illegal, or the instruction at PC names a bad register index or raises its own fault (60_exceptions.md R108, R115). -/
def State.raisesFault (s : State) : Prop :=
  253 < s.pc.toNat ∨ s.cfg.kindOf? s.bytesAtPc.b0 = none ∨
    ∃ i, s.executes i ∧ (i.registersOk = false ∨ raisesOwnFault i s)

/-- Every register but the listed ones is as before. -/
def sameRegsExcept (ds : List (Fin 8)) (s t : State) : Prop :=
  ∀ d, d ∉ ds → t.reg d = s.reg d

/-- Every byte of memory reads as before. -/
def sameMemory (s t : State) : Prop := ∀ a, t.mem.read a = s.mem.read a

/-- ST is as before, or the instruction faulted and nothing but ST changed (60_exceptions.md R109). -/
def stKeptOrFaulted (s t : State) : Prop := t.st = s.st ∨ ∃ r, t = s.takeFault r

/-- `t` differs from `s` at most in FL. -/
def sameButFlags (s t : State) : Prop := { t with fl := s.fl } = s

/-- A run of `k` steps from `s` ends in success: Halted, "normal, successful termination" (00_scope.md R13, R16, 60_exceptions.md R120). -/
def haltsSuccessfully (k : Nat) (s t : State) : Prop :=
  Host.Core.run Sys2Proof.core k s = .next t ∧ t.st.status? = some .success

end Sys2Proof.Machine
end

