-- ==== Sys2Proof/Certificates/Slice0/Obligations.lean ====
section
/-! DEFINITION. The statements for the provers. Where a statement rests on a decision the spec marks as its own (D1 to D29) or on a choice of the model, its docstring names the decision and the log entry. -/

open Sys2Proof Sys2Proof.Machine

/-! ## Encoding -/

/-- For each of the 21 mnemonics its word, written out in the spec's examples, decodes to the instruction it stands for, MOD also with operand byte 9, and 0x00 (30_encoding.md R62) and, without EXT_SUB, 0xA1 are illegal. The byte values are the spec's decision D1 (log 1). -/
def Obligations.ExampleWordsDecode : Prop :=
  decode Config.default ⟨0x82, 0x00, 0x08⟩ = .instr (.ldi 0 8) ∧
  decode Config.default ⟨0x47, 0x04, 0xFF⟩ = .instr (.prn 4) ∧
  decode Config.default ⟨0x01, 0x37, 0x99⟩ = .instr .hlt ∧
  decode Config.default ⟨0xA0, 0x00, 0x01⟩ = .instr (.add 0 1) ∧
  decode Config.default ⟨0xA2, 0x00, 0x01⟩ = .instr (.mul 0 1) ∧
  decode Config.default ⟨0xA4, 0x00, 0x01⟩ = .instr (.mod 0 1) ∧
  decode Config.default ⟨0xA4, 0x00, 0x09⟩ = .instr (.mod 0 9) ∧
  decode Config.default ⟨0xA7, 0x00, 0x01⟩ = .instr (.cmp 0 1) ∧
  decode Config.default ⟨0xA8, 0x00, 0x01⟩ = .instr (.and 0 1) ∧
  decode Config.default ⟨0xAA, 0x00, 0x01⟩ = .instr (.or 0 1) ∧
  decode Config.default ⟨0xAB, 0x00, 0x01⟩ = .instr (.xor 0 1) ∧
  decode Config.default ⟨0xAC, 0x00, 0x01⟩ = .instr (.shl 0 1) ∧
  decode Config.default ⟨0xAD, 0x00, 0x01⟩ = .instr (.shr 0 1) ∧
  decode Config.default ⟨0x69, 0x02, 0x00⟩ = .instr (.not 2) ∧
  decode Config.default ⟨0x45, 0x01, 0x00⟩ = .instr (.push 1) ∧
  decode Config.default ⟨0x46, 0x02, 0x01⟩ = .instr (.pop 2) ∧
  decode Config.default ⟨0x50, 0x02, 0x47⟩ = .instr (.call 2) ∧
  decode Config.default ⟨0x11, 0x00, 0x00⟩ = .instr .ret ∧
  decode Config.default ⟨0x54, 0x00, 0x82⟩ = .instr (.jmp 0) ∧
  decode Config.default ⟨0x55, 0x03, 0x01⟩ = .instr (.jeq 3) ∧
  decode Config.default ⟨0x56, 0x03, 0x00⟩ = .instr (.jne 3) ∧
  decode Config.default ⟨0x00, 0x00, 0x00⟩ = .illegal 0x00 ∧
  decode Config.default ⟨0xA1, 0x00, 0x01⟩ = .illegal 0xA1 ∧
  decode Config.wholeTable ⟨0xA1, 0x00, 0x01⟩ = .instr (.sub 0 1)

/-- Decode and encode agree: for every usable map, every instruction the decoder knows, every operand byte (0 to 255, register operands above 7 too) and whatever bytes follow, decoding the encoded instruction gives it back. Without EXT_SUB the decoder leaves out the byte 0xA1 (R68) and the row SUB (R61); that it leaves out SUB also under a map with SUB elsewhere is DEDUCED (log 28). -/
def Obligations.DecodeOfEncodeIsTheInstruction : Prop :=
  ∀ (c : Config) (i : Instr) (rest : List Byte), c.wf = true → c.decodes i.kind = true →
    decode c (Fetched.ofBytes (encode c i ++ rest)) = .instr i

/-- The other direction: the bytes an instruction was decoded from begin with its encoding, as many bytes as its kind is long (30_encoding.md R52, R57). -/
def Obligations.EncodeOfDecodeIsTheBytes : Prop :=
  ∀ (c : Config) (f : Fetched) (i : Instr), decode c f = .instr i →
    encode c i = [f.b0, f.b1, f.b2].take i.kind.length

/-- A byte is illegal exactly where no row that the decoder knows has it, and the decoder then names it. Without EXT_SUB it leaves out the byte 0xA1 (R68) and the row SUB (R61); that it leaves out SUB also under a map with SUB elsewhere is DEDUCED (log 28). With the default map (D1, log 1) 236 bytes are illegal, with EXT_SUB 235. -/
def Obligations.IllegalOpcodesAreTheOtherBytes : Prop :=
  (∀ (c : Config) (f : Fetched), c.wf = true →
    (decode c f = .illegal f.b0 ↔ ∀ k, c.decodes k = true → c.opcodeMap.opcode k ≠ f.b0)) ∧
  ((List.range 256).countP fun n => (Config.default.kindOf? (BitVec.ofNat 8 n)).isNone) = 236 ∧
  ((List.range 256).countP fun n => (Config.wholeTable.kindOf? (BitVec.ofNat 8 n)).isNone) = 235

/-- Without EXT_SUB the byte 0xA1 is illegal under every map (30_encoding.md R68), and SUB's byte decodes to SUB with EXT_SUB and is illegal without it (R61). The option and its default are the spec's decision D3 (log 3); the second clause under a map with SUB elsewhere than 0xA1 is DEDUCED (log 28). -/
def Obligations.SubIsDecodedOnlyWithTheOption : Prop :=
  (∀ (c : Config) (b1 b2 : Byte), c.extSub = false → decode c ⟨0xA1, b1, b2⟩ = .illegal 0xA1) ∧
  (∀ (c : Config) (b1 b2 : Byte), c.wf = true →
    decode c ⟨c.opcodeMap.sub, b1, b2⟩ =
      if c.extSub then .instr (.sub b1 b2) else .illegal c.opcodeMap.sub)

/-- R54: the fetch reads the three bytes at PC, PC + 1, PC + 2 whatever they hold, and succeeds exactly where all three addresses exist; a byte the format does not use does not change what is decoded, and the instruction decoded has no operand made from it. -/
def Obligations.FetchAlwaysReadsThreeBytes : Prop :=
  (∀ s : State, s.pc.toNat + 2 ≤ 255 → fetch s = .ok s.bytesAtPc) ∧
  (∀ s : State, 255 < s.pc.toNat + 2 → ∃ r, fetch s = .error r ∧ r.cause = .outOfRange .memory) ∧
  (∀ (c : Config) (f g : Fetched), f.b0 = g.b0 →
    (∀ k, c.kindOf? f.b0 = some k → 2 ≤ k.length → f.b1 = g.b1) →
    (∀ k, c.kindOf? f.b0 = some k → 3 ≤ k.length → f.b2 = g.b2) →
    decode c f = decode c g) ∧
  (∀ (c : Config) (f : Fetched) (i : Instr), decode c f = .instr i →
    i.operands = [f.b1, f.b2].take (i.kind.length - 1))

/-! ## The step -/

/-- A step runs the decoded instruction: Running, PC at most 253, the three bytes decode to `i`; then the step is `exec i` at the same state (40_cycle.md R77; PC still the opcode's address, R79). -/
def Obligations.StepRunsTheDecodedInstruction : Prop :=
  ∀ (s : State) (i : Instr), s.st = .running → s.pc.toNat ≤ 253 →
    decode s.cfg ⟨s.mem.read s.pc.toNat, s.mem.read (s.pc.toNat + 1), s.mem.read (s.pc.toNat + 2)⟩ = .instr i →
    step s = exec i s

/-- A table word placed where the next step fetches is the instruction that step runs. The placing stands for the loader (log 16) and turns EXT_SUB on for SUB's byte (log 29): both are the model's choice. -/
def Obligations.PlacedWordIsTheInstructionRun : Prop :=
  ∀ (s : State) (nbits w : Nat) (i : Instr), s.st = .running → s.pc.toNat ≤ 253 → s.mem.wf = true →
    s.cfg.opcodeMap = OpcodeMap.default → decodeTableWord nbits w = some i →
    step (s.withFetchWord nbits w) = exec i (s.withFetchWord nbits w)

/-- R69: the engine takes a step exactly in Running, where every step completes; in Halted and Faulted there is none; the initial state is Running with PC 0. -/
def Obligations.StepsExactlyInRunning : Prop :=
  State.reset.st = .running ∧ State.reset.pc = 0 ∧
  ∀ s : State, (s.st = .running → ∃ t, step s = .next t) ∧ (s.st ≠ .running → ∀ t, step s ≠ .next t)

/-- R71: an illegal opcode byte raises UnknownOpcode carrying that byte, and PC is not advanced. -/
def Obligations.IllegalOpcodeFaultsAtItsAddress : Prop :=
  ∀ s : State, s.st = .running → s.pc.toNat ≤ 253 → s.cfg.kindOf? (s.mem.read s.pc.toNat) = none →
    ∃ t r, step s = .next t ∧ t.st = .faulted r ∧ r.cause = .unknownOpcode ∧
      r.info.toNat = (s.mem.read s.pc.toNat).toNat ∧ t.pc = s.pc

/-- A fetch that would leave memory faults with the first address above 255, and nothing but ST changes (40_cycle.md R70; the 9-bit PC is the spec's decision D7, log 7, the record D13, log 13, committing nothing D11, log 11). -/
def Obligations.FetchBeyondMemoryFaults : Prop :=
  ∀ s : State, s.st = .running → 253 < s.pc.toNat →
    ∃ r : FaultRecord, r.cause = .outOfRange .memory ∧ r.info.toNat = max s.pc.toNat 256 ∧
      step s = .next { s with st := .faulted r }

/-- ST after a step (40_cycle.md R80), as an exact case split: HLT sets Halted; a step that raises a fault, in the fetch, by an illegal opcode, by a bad register index, or by the instruction itself, sets Faulted; every other step leaves Running. Which steps raise one rests on the spec's decisions D7 (log 7), D8 (log 8), D9 (log 9), for POP R7, which faults where the popped byte is 255, on D10 (log 10; 43_stack.md R99, R101), and for SUB elsewhere than 0xA1 on the model's reading (log 28). -/
def Obligations.RunStateAfterAStep : Prop :=
  ∀ s t : State, s.st = .running → step s = .next t →
    (s.executes .hlt → t.st = .halted) ∧
    (s.raisesFault → ∃ r, t.st = .faulted r) ∧
    (¬ s.executes .hlt → ¬ s.raisesFault → t.st = .running)

/-- A step that faults changes nothing but ST. That every fault is precise is the spec's decision D11 (log 11). -/
def Obligations.FaultingStepCommitsNothing : Prop :=
  ∀ (s t : State) (r : FaultRecord), step s = .next t → t.st = .faulted r → t = { s with st := .faulted r }

/-- The order of the faults of one step: the fetch, the opcode, ra, rb, then the instruction's own fault, which is MOD's or a stack bound. The order is the spec's decision D25 (log 24), the fetch bound D7 (log 7), the check of every named register D9 (log 9), the stack bounds D8 (log 8), the record D13 (log 13). -/
def Obligations.FaultsComeInStageOrder : Prop :=
  ∀ (s t : State), s.st = .running → step s = .next t →
    (253 < s.pc.toNat → ∃ r, t.st = .faulted r ∧ r.cause = .outOfRange .memory) ∧
    (s.pc.toNat ≤ 253 → s.cfg.kindOf? s.bytesAtPc.b0 = none → ∃ r, t.st = .faulted r ∧ r.cause = .unknownOpcode) ∧
    (∀ k, s.pc.toNat ≤ 253 → s.cfg.kindOf? s.bytesAtPc.b0 = some k →
      (k.usesRa = true → 7 < s.bytesAtPc.b1.toNat →
        ∃ r, t.st = .faulted r ∧ r.cause = .outOfRange .register ∧ r.info.toNat = s.bytesAtPc.b1.toNat) ∧
      ((k.usesRa = true → s.bytesAtPc.b1.toNat ≤ 7) → k.usesRb = true → 7 < s.bytesAtPc.b2.toNat →
        ∃ r, t.st = .faulted r ∧ r.cause = .outOfRange .register ∧ r.info.toNat = s.bytesAtPc.b2.toNat) ∧
      ((k.usesRa = true → s.bytesAtPc.b1.toNat ≤ 7) → (k.usesRb = true → s.bytesAtPc.b2.toNat ≤ 7) →
        ∀ r, t.st = .faulted r →
          (r.cause = .divisionByZero ∧ k = .mod) ∨
          (r.cause = .outOfRange .stack ∧ (k = .push ∨ k = .pop ∨ k = .call ∨ k = .ret))))

/-- The ALU fails with UnsupportedOperation exactly for an operation outside its set (42_alu.md R85), and no step ever raises it (60_exceptions.md R114; the spec's decision D24, log 23). -/
def Obligations.UnsupportedOperationIsNeverRaised : Prop :=
  (∀ (op : Kind) (a b : Byte), alu op a b = .fails .unsupportedOperation ↔
    op ∈ [Kind.hlt, .ret, .push, .pop, .prn, .call, .jmp, .jeq, .jne, .ldi]) ∧
  (∀ (s t : State) (r : FaultRecord), step s = .next t → t.st = .faulted r → r.cause ≠ .unsupportedOperation)

/-- An instruction that names a register index outside 0 to 7 faults with OutOfRange before it has any effect (10_state.md R21), JEQ and JNE that are not taken too (40_cycle.md R72; the spec's decision D9, log 9), nothing but ST changed (D11, log 11), and one whose indices are all registers never raises that fault. -/
def Obligations.RegisterIndexAboveSevenFaults : Prop :=
  ∀ (i : Instr) (s : State),
    (i.registersOk = false →
      ∃ r : FaultRecord, r.cause = .outOfRange .register ∧ exec i s = .next { s with st := .faulted r }) ∧
    (i.registersOk = true → ∀ t r, exec i s = .next t → s.st = .running → t.st = .faulted r →
      r.cause ≠ .outOfRange .register)

/-! ## Invariants and whole-machine rules -/

/-- The invariant holds right after reset. -/
def Obligations.InvariantAtReset : Prop := State.reset.Inv

/-- The invariant holds after the launch of any image that fits, under any parameters. -/
def Obligations.InvariantAtLaunch : Prop :=
  ∀ (c : Config) (image : List Byte) (t : State), launch c image = .next t → t.Inv

/-- Every step from a state that meets the invariant keeps it: memory stays canonical, PC stays in 0 to 256, FL stays legal, and a fault record is a row of 60_exceptions.md R108 (its values are the spec's decisions D7, D8, D13, log 7, 8, 13). -/
def Obligations.EveryStepKeepsTheInvariant : Prop :=
  ∀ s t : State, s.Inv → step s = .next t → t.Inv

/-- R27: FL changes only in a step that executes CMP; outside JEQ and JNE no bit of it has an effect on anything but FL itself, in JEQ and JNE only bit E has; NotEqual is the negation of Equal. -/
def Obligations.FlagsAreWrittenByCmpAndReadByJumps : Prop :=
  (∀ s t : State, step s = .next t → t.fl ≠ s.fl → ∃ ra rb, s.executes (.cmp ra rb)) ∧
  (∀ (s t : State) (fl : Byte), step s = .next t →
    (fl.getLsbD 0 = s.fl.getLsbD 0 ∨ ∀ ra, ¬ s.executes (.jeq ra) ∧ ¬ s.executes (.jne ra)) →
    ∃ u, step { s with fl := fl } = .next u ∧ sameButFlags t u) ∧
  (∀ fl : Byte, testFlags fl .notEqual = !testFlags fl .equal)

/-- Memory changes only in a step that executes PUSH or CALL, at one address, SP - 1 (20_memory.md R40; the bound on SP is the spec's decision D8, log 8). -/
def Obligations.MemoryChangesOnlyBelowSp : Prop :=
  ∀ (s t : State) (a : Nat), step s = .next t → t.mem.read a ≠ s.mem.read a →
    (∃ ra, s.executes (.push ra) ∨ s.executes (.call ra)) ∧ 0 < s.sp.toNat ∧ a = s.sp.toNat - 1

/-- A register changes only as the destination of LDI, POP or an ALU instruction other than CMP, or as SP in PUSH, POP, CALL, RET (10_state.md R18). -/
def Obligations.RegistersChangeOnlyAsNamed : Prop :=
  ∀ (s t : State) (d : Fin 8), step s = .next t → t.reg d ≠ s.reg d →
    ∃ i, s.executes i ∧
      ((i.kind ∈ [Kind.ldi, .add, .sub, .mul, .mod, .and, .or, .xor, .not, .shl, .shr, .pop] ∧
          i.operands.head? = some (regByte d)) ∨
        (i.kind ∈ [Kind.push, .pop, .call, .ret] ∧ d = spIndex))

/-- OUT is unchanged by a step, or a PRN that does not fault has appended one byte, its register's value (10_state.md R34; that the core emits the byte is the spec's decision D15, log 15). -/
def Obligations.OutputGrowsOnlyByPrn : Prop :=
  ∀ s t : State, step s = .next t →
    t.out = s.out ∨ ∃ d : Fin 8, s.executes (.prn (regByte d)) ∧ t.out = s.out ++ [s.reg d]

/-- Over any number of steps OUT is only ever appended to, and the parameters never change (R15). -/
def Obligations.RunsOnlyAppendToTheOutput : Prop :=
  ∀ (k : Nat) (s t : State), Host.Core.run Sys2Proof.core k s = .next t →
    (∃ emitted, t.out = s.out ++ emitted) ∧ t.cfg = s.cfg

/-- PC after a step that does not fault, mnemonic by mnemonic, from the address of the opcode (40_cycle.md R78). That HLT leaves it is the spec's decision D12 (log 12), that CALL R7 goes to the SP from before D10 (log 10; R73), that 3 bytes from 253 give 256 D7 (log 7). -/
def Obligations.PcAfterEachInstruction : Prop :=
  ∀ (s t : State) (i : Instr), s.executes i → step s = .next t → (∀ r, t.st ≠ .faulted r) →
    (i.kind = .hlt → t.pc = s.pc) ∧
    (i.kind = .ret → t.pc.toNat = (s.mem.read s.sp.toNat).toNat) ∧
    (∀ d : Fin 8, i = .call (regByte d) ∨ i = .jmp (regByte d) → t.pc.toNat = (s.reg d).toNat) ∧
    (∀ d : Fin 8, i = .jeq (regByte d) →
      t.pc.toNat = if s.fl.getLsbD 0 then (s.reg d).toNat else s.pc.toNat + 2) ∧
    (∀ d : Fin 8, i = .jne (regByte d) →
      t.pc.toNat = if s.fl.getLsbD 0 then s.pc.toNat + 2 else (s.reg d).toNat) ∧
    (i.kind ∈ [Kind.prn, .not, .push, .pop] → t.pc.toNat = s.pc.toNat + 2) ∧
    (i.kind ∈ [Kind.ldi, .add, .sub, .mul, .cmp, .and, .or, .xor, .shl, .shr, .mod] →
      t.pc.toNat = s.pc.toNat + 3)

/-- PC does not wrap: it passes 255 only by a 3-byte instruction at 253, which leaves 256, and the next step then faults (10_state.md R24; the 9-bit PC is the spec's decision D7, log 7, the record D13, log 13). -/
def Obligations.PcPassesMemoryOnlyFrom253 : Prop :=
  ∀ s t : State, s.pc.toNat ≤ 255 → step s = .next t → 255 < t.pc.toNat →
    s.pc.toNat = 253 ∧ t.pc.toNat = 256 ∧ (∃ i, s.executes i ∧ i.kind.length = 3) ∧
    ∃ u r, step t = .next u ∧ u.st = .faulted r ∧ r.cause = .outOfRange .memory ∧ r.info.toNat = 256

/-! ## Memory, reset and launch -/

/-- A read in 0 to 255 gives the cell, a write in 0 to 255 stores the byte and no other, and outside both raise OutOfRange(memory, a) (20_memory.md R38, R39). `info` is said to be `a` for `a` below 512 alone, since ST.info has 9 bits (10_state.md R31; the spec's decision D13, log 13); that a write keeps the canonical form speaks of the model's own form of memory (log 31). -/
def Obligations.MemoryAccessIsBoundChecked : Prop :=
  (∀ (s : State) (a : Nat), a ≤ 255 → memRead s a = .ok (s.mem.read a)) ∧
  (∀ (s : State) (a : Nat), 255 < a →
    ∃ r, memRead s a = .error r ∧ r.cause = .outOfRange .memory ∧ (a < 512 → r.info.toNat = a)) ∧
  (∀ (s : State) (a : Nat) (v : Byte), a ≤ 255 → s.mem.wf = true →
    ∃ m, memWrite s a v = .ok { s with mem := m } ∧ m.wf = true ∧
      m.read a = v ∧ ∀ b, b ≠ a → m.read b = s.mem.read b) ∧
  (∀ (s : State) (a : Nat) (v : Byte), 255 < a →
    ∃ r, memWrite s a v = .error r ∧ r.cause = .outOfRange .memory ∧ (a < 512 → r.info.toNat = a))

/-- Memories in canonical form that read the same are the same data (the model's own form, log 31). -/
def Obligations.EqualMemoriesAreEqualData : Prop :=
  ∀ m n : Memory, m.wf = true → n.wf = true → (∀ a, m.read a = n.read a) → m = n

/-- R46 and R124: at the start of a run every cell is 0, but for the loader's n bytes at addresses 0 to n - 1 in file order. -/
def Obligations.LaunchedMemoryIsTheImage : Prop :=
  (∀ a, State.reset.mem.read a = 0) ∧
  (∀ (c : Config) (image : List Byte) (t : State), launch c image = .next t →
    (∀ a (h : a < image.length), t.mem.read a = image[a]) ∧
    (∀ a, image.length ≤ a → t.mem.read a = 0))

/-- The whole state of 70_reset_and_hazards.md R122, memory the image from address 0 and 0 elsewhere, from launch and from the reset input in any state, and `State.reset` is the launch of the empty image with the default parameters. FL's value is the spec's decision D5 (log 5), SP's D6 (log 6), the reset input D28 (log 26); an image over 256 bytes is refused (D16, log 16). -/
def Obligations.ResetGivesTheInitialState : Prop :=
  (∀ (c : Config) (image : List Byte) (s : State), image.length ≤ 256 → s.cfg = c →
    ∃ t, launch c image = .next t ∧ s.resetInput image = .next t ∧
      (∀ d : Fin 8, t.reg d = if d = 7 then c.spInit else 0) ∧
      t.pc = 0 ∧ t.fl = 0 ∧
      (∀ a (h : a < image.length), t.mem.read a = image[a]) ∧ (∀ a, image.length ≤ a → t.mem.read a = 0) ∧
      t.st = .running ∧ t.out = [] ∧ t.cfg = c) ∧
  (∀ (c : Config) (image : List Byte), 256 < image.length → launch c image = .refused (.imageTooLong image.length)) ∧
  launch Config.default [] = .next State.reset ∧ State.reset.sp = 244

/-- The host's status (60_exceptions.md R120): none while Running, success for Halted, failure with the cause for Faulted; the numbers of ST (the spec's decision D13, log 13) tell every mode, cause and kind apart, and outside Faulted cause, kind and info are 0. -/
def Obligations.StatusTellsEveryEndingApart : Prop :=
  RunState.running.status? = none ∧ RunState.halted.status? = some .success ∧
  (∀ r, (RunState.faulted r).status? = some (.failure r.cause)) ∧
  (∀ x y : RunState, x.mode = y.mode → x.cause = y.cause → x.kind = y.kind → x.info = y.info → x = y) ∧
  (∀ x : RunState, x.mode ≠ 2 → x.cause = 0 ∧ x.kind = 0 ∧ x.info = 0)

/-! ## What each instruction does

Each statement's conclusion is that `exec` answers a next state, given whole. The register operands range over all eight registers, the destination SP and the same register twice among them; the forms with an index above 7 are `RegisterIndexAboveSevenFaults`. -/

/-- LDI: the immediate written unchanged (41_data_io.md R81). -/
def Obligations.LdiWritesTheImmediate : Prop :=
  ∀ (d : Fin 8) (imm : Byte) (s : State),
    exec (.ldi (regByte d) imm) s = .next { s.setReg d imm with pc := s.pc + 3 }

/-- PRN: the register's byte appended to OUT (41_data_io.md R82; D15, log 15). -/
def Obligations.PrnEmitsTheRegister : Prop :=
  ∀ (d : Fin 8) (s : State),
    exec (.prn (regByte d)) s = .next { s with out := s.out ++ [s.reg d], pc := s.pc + 2 }

/-- HLT: Halted, PC unchanged, no other write, and no step after it (41_data_io.md R83; PC is D12, log 12; that Halted is final is D22, log 22). -/
def Obligations.HltHaltsForGood : Prop :=
  ∀ s : State, exec .hlt s = .next { s with st := .halted } ∧ ∀ t, step { s with st := .halted } ≠ .next t

/-- ADD modulo 256 (42_alu.md R86; the wrap is the spec's decision D2, log 2). -/
def Obligations.AddWrapsModulo256 : Prop :=
  ∀ (d e : Fin 8) (s : State), ∃ v : Byte, v.toNat = ((s.reg d).toNat + (s.reg e).toNat) % 256 ∧
    exec (.add (regByte d) (regByte e)) s = .next { s.setReg d v with pc := s.pc + 3 }

/-- SUB modulo 256, once decoded (42_alu.md R87; the wrap is D2, log 2, the option D3, log 3). -/
def Obligations.SubWrapsModulo256 : Prop :=
  ∀ (d e : Fin 8) (s : State), ∃ v : Byte, v.toNat = ((s.reg d).toNat + 256 - (s.reg e).toNat) % 256 ∧
    exec (.sub (regByte d) (regByte e)) s = .next { s.setReg d v with pc := s.pc + 3 }

/-- MUL keeps the low 8 bits of the product (42_alu.md R88; D2, log 2). -/
def Obligations.MulKeepsTheLowByte : Prop :=
  ∀ (d e : Fin 8) (s : State), ∃ v : Byte, v.toNat = ((s.reg d).toNat * (s.reg e).toNat) % 256 ∧
    exec (.mul (regByte d) (regByte e)) s = .next { s.setReg d v with pc := s.pc + 3 }

/-- MOD: the exact remainder, or DivisionByZero with the divisor's register index, where nothing but ST changes (42_alu.md R89; the record is D13, log 13, committing nothing D11, log 11). -/
def Obligations.ModGivesTheRemainderOrFaults : Prop :=
  (∀ (d e : Fin 8) (s : State), s.reg e ≠ 0 → ∃ v : Byte, v.toNat = (s.reg d).toNat % (s.reg e).toNat ∧
    exec (.mod (regByte d) (regByte e)) s = .next { s.setReg d v with pc := s.pc + 3 }) ∧
  (∀ (d e : Fin 8) (s : State), s.reg e = 0 → ∃ r : FaultRecord, r.cause = .divisionByZero ∧ r.info.toNat = e.val ∧
    exec (.mod (regByte d) (regByte e)) s = .next { s with st := .faulted r })

/-- AND, OR, XOR, bit by bit (42_alu.md R90, R91, R92). -/
def Obligations.LogicInstructionsWorkBitwise : Prop :=
  ∀ (d e : Fin 8) (s : State), ∃ x y z : Byte,
    (∀ n, x.getLsbD n = ((s.reg d).getLsbD n && (s.reg e).getLsbD n)) ∧
    (∀ n, y.getLsbD n = ((s.reg d).getLsbD n || (s.reg e).getLsbD n)) ∧
    (∀ n, z.getLsbD n = ((s.reg d).getLsbD n ^^ (s.reg e).getLsbD n)) ∧
    exec (.and (regByte d) (regByte e)) s = .next { s.setReg d x with pc := s.pc + 3 } ∧
    exec (.or (regByte d) (regByte e)) s = .next { s.setReg d y with pc := s.pc + 3 } ∧
    exec (.xor (regByte d) (regByte e)) s = .next { s.setReg d z with pc := s.pc + 3 }

/-- NOT: 255 minus the value, PC on by 2 (42_alu.md R93; D2, log 2). -/
def Obligations.NotComplementsTheRegister : Prop :=
  ∀ (d : Fin 8) (s : State), ∃ v : Byte, v.toNat = 255 - (s.reg d).toNat ∧
    exec (.not (regByte d)) s = .next { s.setReg d v with pc := s.pc + 2 }

/-- SHL and SHR by the whole byte of register b, logical; 8 or more gives 0 (42_alu.md R94, R95; the amount is the spec's decision D18, log 18, signedness D19, log 19). -/
def Obligations.ShiftsUseTheWholeAmount : Prop :=
  ∀ (d e : Fin 8) (s : State), ∃ x y : Byte,
    x.toNat = (s.reg d).toNat * 2 ^ (s.reg e).toNat % 256 ∧
    y.toNat = (s.reg d).toNat / 2 ^ (s.reg e).toNat ∧
    (8 ≤ (s.reg e).toNat → x = 0 ∧ y = 0) ∧
    exec (.shl (regByte d) (regByte e)) s = .next { s.setReg d x with pc := s.pc + 3 } ∧
    exec (.shr (regByte d) (regByte e)) s = .next { s.setReg d y with pc := s.pc + 3 }

/-- CMP: FL written in full, exactly one of E, G, L set by an unsigned comparison, no register written (42_alu.md R96; unsigned is D19, log 19). -/
def Obligations.CmpSetsExactlyOneFlag : Prop :=
  ∀ (d e : Fin 8) (s : State), ∃ fl : Byte,
    fl.getLsbD 0 = decide ((s.reg d).toNat = (s.reg e).toNat) ∧
    fl.getLsbD 1 = decide ((s.reg d).toNat > (s.reg e).toNat) ∧
    fl.getLsbD 2 = decide ((s.reg d).toNat < (s.reg e).toNat) ∧
    (∀ n, 3 ≤ n → fl.getLsbD n = false) ∧
    exec (.cmp (regByte d) (regByte e)) s = .next { s with fl := fl, pc := s.pc + 3 }

/-- PUSH: SP down by one, the byte there the register as it was before (also for R7, decision D10, log 10); with SP 0 OutOfRange(stack, 0) and nothing but ST changes (43_stack.md R99, R100; D8, D11, D13, log 8, 11, 13). -/
def Obligations.PushStoresBelowSp : Prop :=
  (∀ (d : Fin 8) (s : State), s.sp ≠ 0 →
    exec (.push (regByte d)) s = .next
      { s.setReg 7 (s.sp - 1) with mem := s.mem.write (s.sp - 1).toNat (s.reg d), pc := s.pc + 2 }) ∧
  (∀ (d : Fin 8) (s : State), s.sp = 0 → ∃ r : FaultRecord, r.cause = .outOfRange .stack ∧ r.info.toNat = 0 ∧
    exec (.push (regByte d)) s = .next { s with st := .faulted r })

/-- POP: the byte at SP into the register, SP up by one; POP R7 leaves the byte plus one (decision D10, log 10); OutOfRange(stack, 255) where the value to be raised is 255 (43_stack.md R99, R101; D8, log 8), nothing but ST changed (D11, D13, log 11, 13). -/
def Obligations.PopLoadsFromSp : Prop :=
  (∀ (d : Fin 8) (s : State), d ≠ 7 → s.sp ≠ 255 →
    exec (.pop (regByte d)) s = .next
      { (s.setReg d (s.mem.read s.sp.toNat)).setReg 7 (s.sp + 1) with pc := s.pc + 2 }) ∧
  (∀ s : State, s.mem.read s.sp.toNat ≠ 255 →
    exec (.pop (regByte 7)) s = .next { s.setReg 7 (s.mem.read s.sp.toNat + 1) with pc := s.pc + 2 }) ∧
  (∀ (d : Fin 8) (s : State), (if d = 7 then s.mem.read s.sp.toNat else s.sp) = 255 →
    ∃ r : FaultRecord, r.cause = .outOfRange .stack ∧ r.info.toNat = 255 ∧
      exec (.pop (regByte d)) s = .next { s with st := .faulted r })

/-- CALL: PC + 2 stored below SP, SP down by one, PC the register as it was before (also for R7, decision D10, log 10); with SP 0 OutOfRange(stack, 0), nothing but ST changed (44_control.md R103; D8, D11, D13, log 8, 11, 13). -/
def Obligations.CallStoresTheReturnAddress : Prop :=
  (∀ (d : Fin 8) (s : State), s.sp ≠ 0 → s.pc.toNat ≤ 253 → ∃ ret : Byte, ret.toNat = s.pc.toNat + 2 ∧
    exec (.call (regByte d)) s = .next
      { s.setReg 7 (s.sp - 1) with mem := s.mem.write (s.sp - 1).toNat ret, pc := (s.reg d).zeroExtend 9 }) ∧
  (∀ (d : Fin 8) (s : State), s.sp = 0 → ∃ r : FaultRecord, r.cause = .outOfRange .stack ∧ r.info.toNat = 0 ∧
    exec (.call (regByte d)) s = .next { s with st := .faulted r })

/-- RET: PC the byte at SP, SP up by one; with SP 255 OutOfRange(stack, 255), nothing but ST changed (44_control.md R104; D8, D11, D13, log 8, 11, 13). -/
def Obligations.RetLoadsPcFromSp : Prop :=
  (∀ s : State, s.sp ≠ 255 →
    exec .ret s = .next { s.setReg 7 (s.sp + 1) with pc := (s.mem.read s.sp.toNat).zeroExtend 9 }) ∧
  (∀ s : State, s.sp = 255 → ∃ r : FaultRecord, r.cause = .outOfRange .stack ∧ r.info.toNat = 255 ∧
    exec .ret s = .next { s with st := .faulted r })

/-- JMP: PC the register's byte, nothing else (44_control.md R105). -/
def Obligations.JmpSetsPc : Prop :=
  ∀ (d : Fin 8) (s : State), ∃ p : PcWord, p.toNat = (s.reg d).toNat ∧
    exec (.jmp (regByte d)) s = .next { s with pc := p }

/-- JEQ and JNE: taken on bit E alone, else PC on by 2 (44_control.md R106, R107). -/
def Obligations.ConditionalJumpsTestEqual : Prop :=
  ∀ (d : Fin 8) (s : State),
    exec (.jeq (regByte d)) s =
      .next { s with pc := if s.fl.getLsbD 0 then (s.reg d).zeroExtend 9 else s.pc + 2 } ∧
    exec (.jne (regByte d)) s =
      .next { s with pc := if s.fl.getLsbD 0 then s.pc + 2 else (s.reg d).zeroExtend 9 }

/-! ## Pairs of instructions -/

/-- PUSH r then POP r2 leaves SP as it was and r2 with r's value before the PUSH, for r2 other than SP and a start SP of 1 to 255 (43_stack.md R101; D8, D10, log 8, 10). -/
def Obligations.PopAfterPushGivesTheRegister : Prop :=
  ∀ (d e : Fin 8) (s : State), e ≠ 7 → s.sp ≠ 0 → s.mem.wf = true →
    ∃ t u, exec (.push (regByte d)) s = .next t ∧ exec (.pop (regByte e)) t = .next u ∧
      u.sp = s.sp ∧ u.reg e = s.reg d ∧ sameRegsExcept [e] s u ∧ u.fl = s.fl

/-- After CALL, a RET in any state with the SP and the stacked byte that the CALL left resumes at the CALL's PC + 2 with the SP before the CALL (44_control.md R104; D8, D10, log 8, 10). -/
def Obligations.RetAfterCallResumes : Prop :=
  ∀ (d : Fin 8) (s t u : State), s.sp ≠ 0 → s.pc.toNat ≤ 253 → s.mem.wf = true →
    exec (.call (regByte d)) s = .next t →
    u.sp = t.sp → u.mem.read t.sp.toNat = t.mem.read t.sp.toNat →
    ∃ v, exec .ret u = .next v ∧ v.pc.toNat = s.pc.toNat + 2 ∧ v.sp = s.sp

/-- A byte stored by PUSH or CALL, at SP - 1, is what the next fetch reads there, with nothing in between, at whichever of its three places the PC of that fetch puts it: opcode byte, b1 or b2 (20_memory.md R49; D8, D10, log 8, 10). -/
def Obligations.StoredBytesAreFetched : Prop :=
  ∀ (d : Fin 8) (s : State) (p : PcWord), s.sp ≠ 0 → s.mem.wf = true →
    p.toNat ≤ s.sp.toNat - 1 → s.sp.toNat - 1 ≤ p.toNat + 2 → p.toNat + 2 ≤ 255 →
    (∃ t f, exec (.push (regByte d)) s = .next t ∧ fetch { t with pc := p } = .ok f ∧
      [f.b0, f.b1, f.b2][s.sp.toNat - 1 - p.toNat]? = some (s.reg d)) ∧
    (s.pc.toNat ≤ 253 → ∃ t f ret, exec (.call (regByte d)) s = .next t ∧ fetch { t with pc := p } = .ok f ∧
      [f.b0, f.b1, f.b2][s.sp.toNat - 1 - p.toNat]? = some ret ∧ ret.toNat = s.pc.toNat + 2)

/-- R7 is SP: LDI R7 moves the stack, and the next PUSH stores below the new SP (70_reset_and_hazards.md R129; that the bound faults at 0 is D8, log 8). -/
def Obligations.LdiToRegisterSevenMovesTheStack : Prop :=
  ∀ (d : Fin 8) (imm : Byte) (s : State), d ≠ 7 → imm ≠ 0 → s.mem.wf = true →
    ∃ t u, exec (.ldi (regByte 7) imm) s = .next t ∧ t.sp = imm ∧ exec (.push (regByte d)) t = .next u ∧
      u.sp.toNat = imm.toNat - 1 ∧ u.mem.read (imm.toNat - 1) = s.reg d

/-! ## Frames -/

/-- The frame of LDI and of every ALU instruction but CMP: only register a, PC, and on a fault ST. Nothing is stored. -/
def Obligations.RegisterWritersChangeOneRegister : Prop :=
  ∀ (ra rb : Byte) (s t : State),
    ∀ i ∈ [Instr.ldi ra rb, .add ra rb, .sub ra rb, .mul ra rb, .mod ra rb, .and ra rb, .or ra rb, .xor ra rb,
      .not ra, .shl ra rb, .shr ra rb],
    exec i s = .next t →
    (∀ d : Fin 8, ra ≠ regByte d → t.reg d = s.reg d) ∧
    t.fl = s.fl ∧ sameMemory s t ∧ t.out = s.out ∧ t.cfg = s.cfg ∧ stKeptOrFaulted s t

/-- The frame of CMP: only FL, PC, and on a fault ST. -/
def Obligations.CmpChangesOnlyFlags : Prop :=
  ∀ (ra rb : Byte) (s t : State), exec (.cmp ra rb) s = .next t →
    sameRegsExcept [] s t ∧ sameMemory s t ∧ t.out = s.out ∧ t.cfg = s.cfg ∧ stKeptOrFaulted s t

/-- The frame of PUSH and CALL: only SP, PC, the byte at the SP that `sp_dec` gives, and on a fault ST. -/
def Obligations.StackStoresChangeOneByte : Prop :=
  ∀ (ra : Byte) (s t : State), ∀ i ∈ [Instr.push ra, .call ra], exec i s = .next t →
    sameRegsExcept [7] s t ∧ t.fl = s.fl ∧ t.out = s.out ∧ t.cfg = s.cfg ∧ stKeptOrFaulted s t ∧
    (∀ u, spDec s = .ok u → ∀ a, a ≠ u.sp.toNat → t.mem.read a = s.mem.read a) ∧
    (∀ r, spDec s = .error r → sameMemory s t)

/-- The frame of POP and RET: only SP, POP's register, PC, and on a fault ST. Nothing is stored; the popped cell is not cleared (43_stack.md R101). -/
def Obligations.StackLoadsStoreNothing : Prop :=
  (∀ (ra : Byte) (s t : State), exec (.pop ra) s = .next t →
    (∀ d : Fin 8, ra ≠ regByte d → d ≠ 7 → t.reg d = s.reg d) ∧
    t.fl = s.fl ∧ sameMemory s t ∧ t.out = s.out ∧ t.cfg = s.cfg ∧ stKeptOrFaulted s t) ∧
  (∀ s t : State, exec .ret s = .next t →
    sameRegsExcept [7] s t ∧ t.fl = s.fl ∧ sameMemory s t ∧ t.out = s.out ∧ t.cfg = s.cfg ∧ stKeptOrFaulted s t)

/-- The frame of JMP, JEQ, JNE: only PC, and on a fault ST. -/
def Obligations.JumpsChangeOnlyPc : Prop :=
  ∀ (ra : Byte) (s t : State), ∀ i ∈ [Instr.jmp ra, .jeq ra, .jne ra], exec i s = .next t →
    sameRegsExcept [] s t ∧ t.fl = s.fl ∧ sameMemory s t ∧ t.out = s.out ∧ t.cfg = s.cfg ∧ stKeptOrFaulted s t

/-- The frames of PRN (only OUT, PC, and on a fault ST) and HLT (only ST). -/
def Obligations.PrnAndHltChangeNoRegister : Prop :=
  (∀ (ra : Byte) (s t : State), exec (.prn ra) s = .next t →
    sameRegsExcept [] s t ∧ t.fl = s.fl ∧ sameMemory s t ∧ t.cfg = s.cfg ∧ stKeptOrFaulted s t) ∧
  (∀ s t : State, exec .hlt s = .next t →
    sameRegsExcept [] s t ∧ t.fl = s.fl ∧ sameMemory s t ∧ t.out = s.out ∧ t.cfg = s.cfg ∧ t.pc = s.pc)

/-! ## The host's view -/

/-- What the host sees (70_reset_and_hazards.md R134; the spec's decisions D14, D29, log 14): while the engine is Running, OUT alone, so that Running states with one OUT look the same. A step that goes on shows OUT as before or, by PRN, one byte longer; a step that executes HLT or raises a fault shows the final reading, its ST and otherwise the state before the step (D11, D12, log 11, 12; which steps raise a fault: D7 to D10, log 7 to 10 and 28). The final view is the whole state but for the parameters. -/
def Obligations.HostSeesOutThenTheFinalState : Prop :=
  (∀ s t : State, s.st = .running → t.st = .running → (s.hostView = t.hostView ↔ s.out = t.out)) ∧
  (∀ s t : State, s.st = .running → step s = .next t →
    s.hostView = ⟨s.out, none⟩ ∧
    (s.executes .hlt → t.hostView = ⟨s.out, some ⟨.halted, s.pc, s.regs, s.fl, s.mem⟩⟩) ∧
    (s.raisesFault → ∃ r, t.hostView = ⟨s.out, some ⟨.faulted r, s.pc, s.regs, s.fl, s.mem⟩⟩) ∧
    (¬ s.executes .hlt → ¬ s.raisesFault →
      t.hostView = ⟨s.out, none⟩ ∨ ∃ d : Fin 8, s.executes (.prn (regByte d)) ∧ t.hostView = ⟨s.out ++ [s.reg d], none⟩)) ∧
  (∀ s t : State, s.st ≠ .running → s.cfg = t.cfg → s.hostView = t.hostView → s = t)
end

