-- ==== Sys2Proof/Laws/Decode.lean ====
section
/-! SUPPORT. The decoder and the encoder: what a lookup in the opcode map answers, and the small facts about kinds and formats. -/

namespace Sys2Proof

theorem Kind.mem_all (k : Kind) : k ∈ Kind.all := by cases k <;> decide

@[simp] theorem Kind.instr_kind (k : Kind) (b1 b2 : Byte) : (k.instr b1 b2).kind = k := by cases k <;> rfl

/-- The operand bytes of a decoded instruction are the first of the two, as many as the kind has. -/
theorem Kind.instr_operands (k : Kind) (b1 b2 : Byte) :
    (k.instr b1 b2).operands = [b1, b2].take (k.length - 1) := by cases k <;> rfl

/-- Building the instruction again from its kind and its operand bytes gives it back. -/
theorem Instr.instr_of_operands (i : Instr) :
    i.kind.instr (i.operands.getD 0 0) (i.operands.getD 1 0) = i := by cases i <;> rfl

/-- A kind's instruction does not depend on the bytes its format does not use. -/
theorem Kind.instr_congr (k : Kind) {b1 b2 c1 c2 : Byte} (h1 : 2 ≤ k.length → b1 = c1) (h2 : 3 ≤ k.length → b2 = c2) :
    k.instr b1 b2 = k.instr c1 c2 := by
  cases k <;> simp_all [Kind.instr, Kind.length, Kind.format, Format.length]

/-- A kind that is found has the byte looked up. -/
theorem OpcodeMap.opcode_of_kindOf? {m : OpcodeMap} {b : Byte} {k : Kind} (h : m.kindOf? b = some k) :
    m.opcode k = b := by
  have := List.find?_some h
  simpa using this

/-- In an unambiguous map a kind's byte finds that kind. -/
theorem OpcodeMap.kindOf?_opcode {m : OpcodeMap} (hm : m.distinct = true) (k : Kind) :
    m.kindOf? (m.opcode k) = some k := by
  have hnd : (Kind.all.map m.opcode).Nodup := by simpa [OpcodeMap.distinct] using hm
  cases hf : m.kindOf? (m.opcode k) with
  | none =>
    have := List.find?_eq_none.1 hf k k.mem_all
    simp at this
  | some j =>
    have hj := OpcodeMap.opcode_of_kindOf? hf
    rw [List.inj_on_of_nodup_map hnd j.mem_all k.mem_all hj]

/-- What the decoder answers, by the kind it finds. -/
theorem decode_of_kindOf? {c : Config} {f : Fetched} {k : Kind} (h : c.kindOf? f.b0 = some k) :
    decode c f = .instr (k.instr f.b1 f.b2) := by simp [decode, h]

theorem decode_of_kindOf?_none {c : Config} {f : Fetched} (h : c.kindOf? f.b0 = none) :
    decode c f = .illegal f.b0 := by simp [decode, h]

/-- A decoded instruction comes from a kind that was found. -/
theorem decode_instr_inv {c : Config} {f : Fetched} {i : Instr} (h : decode c f = .instr i) :
    ∃ k, c.kindOf? f.b0 = some k ∧ i = k.instr f.b1 f.b2 := by
  cases hk : c.kindOf? f.b0 with
  | none => rw [decode_of_kindOf?_none hk] at h; cases h
  | some k => rw [decode_of_kindOf? hk] at h; cases h; exact ⟨k, rfl, rfl⟩

/-- With EXT_SUB the decoder looks the byte up in the map and nothing else (30_encoding.md R68). -/
theorem Config.kindOf?_of_extSub {c : Config} (h : c.extSub = true) (b : Byte) : c.kindOf? b = c.opcodeMap.kindOf? b := by
  simp [Config.kindOf?, h]

/-- Without EXT_SUB the byte 0xA1 is illegal under every map (30_encoding.md R68). -/
theorem Config.kindOf?_A1 {c : Config} (h : c.extSub = false) : c.kindOf? 0xA1 = none := by
  simp [Config.kindOf?, Config.gated, h]

/-- A kind that the machine's decoder finds is in the map and known to the decoder. -/
theorem Config.kindOf?_eq_some {c : Config} {b : Byte} {k : Kind} :
    c.kindOf? b = some k ↔ c.opcodeMap.kindOf? b = some k ∧ c.decodes k = true := by
  constructor
  · intro h
    unfold Config.kindOf? at h
    split at h
    · cases h
    · rename_i hg
      refine ⟨h, ?_⟩
      unfold Config.decodes
      rw [OpcodeMap.opcode_of_kindOf? h]
      cases he : c.extSub <;> simp_all
  · rintro ⟨h, hd⟩
    unfold Config.decodes at hd
    rw [OpcodeMap.opcode_of_kindOf? h] at hd
    unfold Config.kindOf?
    rw [if_neg, h]
    cases he : c.extSub <;> simp_all

/-- In a usable configuration a known kind's byte finds that kind. -/
theorem Config.kindOf?_opcode {c : Config} (hc : c.wf = true) {k : Kind} (hk : c.decodes k = true) :
    c.kindOf? (c.opcodeMap.opcode k) = some k :=
  Config.kindOf?_eq_some.2 ⟨OpcodeMap.kindOf?_opcode hc k, hk⟩

/-- Well-formedness, taken apart. -/
theorem Instr.wellFormed_iff (c : Config) (i : Instr) :
    i.wellFormed c = true ↔ c.decodes i.kind = true ∧ i.registersOk = true := by
  simp [Instr.wellFormed]

theorem Config.default_wf : Config.default.wf = true := by decide

theorem Config.wholeTable_wf : Config.wholeTable.wf = true := by decide

end Sys2Proof
end

