-- ==== Sys2Proof/Laws/Memory.lean ====
section
/-! SUPPORT. Memory: reading after writing, and that every operation keeps the canonical form. -/

namespace Sys2Proof.Machine

@[simp] theorem Memory.read_nil (a : Nat) : Memory.read [] a = 0 := rfl

theorem Memory.wfFrom_cons (lo a : Nat) (v : Byte) (rest : Memory) :
    Memory.wfFrom lo ((a, v) :: rest) = true ↔
      lo ≤ a ∧ a < 256 ∧ v ≠ 0 ∧ Memory.wfFrom (a + 1) rest = true := by
  simp [Memory.wfFrom, blankByte, and_assoc]

/-- A memory canonical from an address is canonical from every lower one. -/
theorem Memory.wfFrom_mono {lo lo' : Nat} (h : lo' ≤ lo) : ∀ {m : Memory},
    Memory.wfFrom lo m = true → Memory.wfFrom lo' m = true
  | [], _ => rfl
  | (a, v) :: rest, hm => by
    rw [Memory.wfFrom_cons] at hm ⊢
    exact ⟨by omega, hm.2⟩

/-- Below its start a canonical memory lists nothing. -/
theorem Memory.read_below {lo a : Nat} (h : a < lo) : ∀ {m : Memory},
    Memory.wfFrom lo m = true → Memory.read m a = 0
  | [], _ => rfl
  | (b, v) :: rest, hm => by
    obtain ⟨hb, -, -, hrest⟩ := (Memory.wfFrom_cons ..).1 hm
    have hne : a ≠ b := by omega
    simpa [Memory.read, hne] using Memory.read_below (by omega) hrest

theorem Memory.read_write_ne {a b : Nat} (v : Byte) (h : b ≠ a) : ∀ m : Memory,
    (Memory.write m a v).read b = m.read b
  | [] => by
    unfold Memory.write
    split <;> simp [Memory.read, h, blankByte]
  | (c, w) :: rest => by
    have ih := Memory.read_write_ne v h rest
    unfold Memory.write
    split
    · split <;> simp [Memory.read, h]
    · split
      · rename_i hac
        subst hac
        split <;> simp [Memory.read, h]
      · simp [Memory.read, ih]

theorem Memory.read_write_same_from {lo a : Nat} (v : Byte) : ∀ {m : Memory},
    Memory.wfFrom lo m = true → (Memory.write m a v).read a = v
  | [], _ => by
    unfold Memory.write
    split
    · rename_i hv; rw [hv]; rfl
    · simp [Memory.read]
  | (c, w) :: rest, hm => by
    obtain ⟨-, -, -, hrest⟩ := (Memory.wfFrom_cons ..).1 hm
    unfold Memory.write
    split
    · rename_i hac
      split
      · rename_i hv
        have h0 : Memory.read ((c, w) :: rest) a = 0 := by
          have hne : a ≠ c := by omega
          simpa [Memory.read, hne] using Memory.read_below (by omega) hrest
        rw [h0, hv]; rfl
      · simp [Memory.read]
    · split
      · rename_i hac
        subst hac
        split
        · rename_i hv
          rw [Memory.read_below (Nat.lt_succ_self a) hrest, hv]; rfl
        · simp [Memory.read]
      · rename_i hac
        simpa [Memory.read, hac] using Memory.read_write_same_from v hrest

/-- A read after a write to the same address gives the byte written. -/
theorem Memory.read_write_same {m : Memory} (hm : m.wf = true) (a : Nat) (v : Byte) :
    (m.write a v).read a = v :=
  Memory.read_write_same_from v hm

/-- What a read gives after a write. -/
theorem Memory.read_write {m : Memory} (hm : m.wf = true) (a b : Nat) (v : Byte) :
    (m.write a v).read b = if b = a then v else m.read b := by
  split
  · rename_i h; rw [h, Memory.read_write_same hm]
  · rename_i h; exact Memory.read_write_ne v h m

theorem Memory.wfFrom_write {a : Nat} (v : Byte) (ha : a < 256) : ∀ {lo : Nat} {m : Memory}, lo ≤ a →
    Memory.wfFrom lo m = true → Memory.wfFrom lo (m.write a v) = true
  | lo, [], hlo, _ => by
    by_cases hv : v = blankByte
    · simp [Memory.write, hv, Memory.wfFrom]
    · simp [Memory.write, hv, Memory.wfFrom, hlo, ha]
  | lo, (c, w) :: rest, hlo, hm => by
    obtain ⟨hc, hc', hw, hrest⟩ := (Memory.wfFrom_cons ..).1 hm
    unfold Memory.write
    split
    · split
      · exact hm
      · rename_i hv
        exact (Memory.wfFrom_cons ..).2 ⟨hlo, ha, hv, (Memory.wfFrom_cons ..).2 ⟨by omega, hc', hw, hrest⟩⟩
    · split
      · rename_i hac
        subst hac
        split
        · exact Memory.wfFrom_mono (by omega) hrest
        · rename_i hv
          exact (Memory.wfFrom_cons ..).2 ⟨hlo, ha, hv, hrest⟩
      · exact (Memory.wfFrom_cons ..).2 ⟨hc, hc', hw, Memory.wfFrom_write v ha (by omega) hrest⟩

/-- A write to an address that exists keeps the canonical form. -/
theorem Memory.wf_write {m : Memory} (hm : m.wf = true) {a : Nat} (ha : a ≤ 255) (v : Byte) :
    (m.write a v).wf = true :=
  Memory.wfFrom_write v (by omega) (Nat.zero_le a) hm

/-- Loading bytes that fit keeps the canonical form. -/
theorem Memory.wf_load : ∀ {bs : List Byte} {a : Nat} {m : Memory}, m.wf = true → a + bs.length ≤ 256 →
    (Memory.load a bs m).wf = true
  | [], _, _, hm, _ => hm
  | b :: bs, a, m, hm, h => by
    rw [List.length_cons] at h
    exact Memory.wf_load (m := m.write a b) (Memory.wf_write hm (by omega) b) (by omega)

/-- Placing bytes keeps the canonical form wherever they are placed. -/
theorem Memory.wf_place : ∀ {bs : List Byte} {a : Nat} {m : Memory}, m.wf = true → (m.place a bs).wf = true
  | [], _, _, hm => hm
  | b :: bs, a, m, hm => by
    unfold Memory.place
    split
    · rename_i ha; exact Memory.wf_place (Memory.wf_write hm ha b)
    · exact Memory.wf_place hm

/-- Loading leaves every address below its start alone. -/
theorem Memory.read_load_below : ∀ {bs : List Byte} {a b : Nat} {m : Memory}, b < a →
    (Memory.load a bs m).read b = m.read b
  | [], _, _, _, _ => rfl
  | v :: bs, a, b, m, h => by
    rw [Memory.load, Memory.read_load_below (by omega), Memory.read_write_ne v (by omega)]

/-- Everything the loader does: each byte stands at its place from the address up, and every cell above them is as before (70_reset_and_hazards.md R125); the cells below are `read_load_below`. -/
theorem Memory.read_load : ∀ {bs : List Byte} {a : Nat} {m : Memory}, m.wf = true → a + bs.length ≤ 256 →
    (∀ i (h : i < bs.length), (Memory.load a bs m).read (a + i) = bs[i]) ∧
      ∀ b, a + bs.length ≤ b → (Memory.load a bs m).read b = m.read b
  | [], a, m, _, _ => ⟨fun i h => absurd h (Nat.not_lt_zero i), fun b _ => rfl⟩
  | v :: bs, a, m, hm, hl => by
    rw [List.length_cons] at hl
    obtain ⟨inside, above⟩ := Memory.read_load (bs := bs) (a := a + 1) (Memory.wf_write hm (show a ≤ 255 by omega) v) (by omega)
    constructor
    · intro i hi
      cases i with
      | zero => rw [Nat.add_zero, Memory.load, Memory.read_load_below (Nat.lt_succ_self _), Memory.read_write_same hm]; rfl
      | succ i => rw [Memory.load, show a + (i + 1) = a + 1 + i by omega, inside i (by simpa using hi)]; rfl
    · intro b hb
      rw [List.length_cons] at hb
      rw [Memory.load, above b (by omega), Memory.read_write_ne v (by omega)]

@[simp] theorem wf_reset_mem : State.reset.mem.wf = true := rfl

end Sys2Proof.Machine
end

