-- ==== Sys2Proof/Laws/State.lean ====
section
/-! SUPPORT. What each update of State does to each field, reading a register after writing one, and what the host's view shows. -/

namespace Sys2Proof.Machine

section setReg
variable (s : State) (d : Fin 8) (v : Byte)
@[simp] theorem setReg_pc : (s.setReg d v).pc = s.pc := rfl
@[simp] theorem setReg_fl : (s.setReg d v).fl = s.fl := rfl
@[simp] theorem setReg_mem : (s.setReg d v).mem = s.mem := rfl
@[simp] theorem setReg_st : (s.setReg d v).st = s.st := rfl
@[simp] theorem setReg_out : (s.setReg d v).out = s.out := rfl
@[simp] theorem setReg_cfg : (s.setReg d v).cfg = s.cfg := rfl

@[simp] theorem reg_setReg_same : (s.setReg d v).reg d = v := by
  simp [State.reg, State.setReg, Vector.get_eq_getElem]

theorem reg_setReg_of_ne {e : Fin 8} (h : e ≠ d) : (s.setReg d v).reg e = s.reg e := by
  have h' : d.val ≠ e.val := fun hv => h (Fin.ext hv.symm)
  simp [State.reg, State.setReg, Vector.get_eq_getElem, Vector.getElem_set_ne, h']

theorem reg_setReg (e : Fin 8) : (s.setReg d v).reg e = if e = d then v else s.reg e := by
  split
  · rename_i h; rw [h, reg_setReg_same]
  · rename_i h; exact reg_setReg_of_ne s d v h

theorem setReg_sp_of_ne (h : d ≠ spIndex) : (s.setReg d v).sp = s.sp :=
  reg_setReg_of_ne s d v (Ne.symm h)

@[simp] theorem setReg_spIndex_sp : (s.setReg spIndex v).sp = v := reg_setReg_same s spIndex v
end setReg

section advance
variable (s : State) (k : Kind)
@[simp] theorem advance_regs : (s.advance k).regs = s.regs := rfl
@[simp] theorem advance_reg (d : Fin 8) : (s.advance k).reg d = s.reg d := rfl
@[simp] theorem advance_sp : (s.advance k).sp = s.sp := rfl
@[simp] theorem advance_pc : (s.advance k).pc = s.pc + BitVec.ofNat 9 k.length := rfl
@[simp] theorem advance_fl : (s.advance k).fl = s.fl := rfl
@[simp] theorem advance_mem : (s.advance k).mem = s.mem := rfl
@[simp] theorem advance_st : (s.advance k).st = s.st := rfl
@[simp] theorem advance_out : (s.advance k).out = s.out := rfl
@[simp] theorem advance_cfg : (s.advance k).cfg = s.cfg := rfl
end advance

section jump
variable (s : State) (a : Byte)
@[simp] theorem jump_regs : (s.jump a).regs = s.regs := rfl
@[simp] theorem jump_reg (d : Fin 8) : (s.jump a).reg d = s.reg d := rfl
@[simp] theorem jump_sp : (s.jump a).sp = s.sp := rfl
@[simp] theorem jump_pc : (s.jump a).pc = a.zeroExtend 9 := rfl
@[simp] theorem jump_fl : (s.jump a).fl = s.fl := rfl
@[simp] theorem jump_mem : (s.jump a).mem = s.mem := rfl
@[simp] theorem jump_st : (s.jump a).st = s.st := rfl
@[simp] theorem jump_out : (s.jump a).out = s.out := rfl
@[simp] theorem jump_cfg : (s.jump a).cfg = s.cfg := rfl
end jump

section emit
variable (s : State) (v : Byte)
@[simp] theorem emit_regs : (s.emit v).regs = s.regs := rfl
@[simp] theorem emit_reg (d : Fin 8) : (s.emit v).reg d = s.reg d := rfl
@[simp] theorem emit_sp : (s.emit v).sp = s.sp := rfl
@[simp] theorem emit_pc : (s.emit v).pc = s.pc := rfl
@[simp] theorem emit_fl : (s.emit v).fl = s.fl := rfl
@[simp] theorem emit_mem : (s.emit v).mem = s.mem := rfl
@[simp] theorem emit_st : (s.emit v).st = s.st := rfl
@[simp] theorem emit_out : (s.emit v).out = s.out ++ [v] := rfl
@[simp] theorem emit_cfg : (s.emit v).cfg = s.cfg := rfl
end emit

section setFlags
variable (s : State) (v : Byte)
@[simp] theorem setFlags_regs : (s.setFlags v).regs = s.regs := rfl
@[simp] theorem setFlags_reg (d : Fin 8) : (s.setFlags v).reg d = s.reg d := rfl
@[simp] theorem setFlags_sp : (s.setFlags v).sp = s.sp := rfl
@[simp] theorem setFlags_pc : (s.setFlags v).pc = s.pc := rfl
@[simp] theorem setFlags_fl : (s.setFlags v).fl = v := rfl
@[simp] theorem setFlags_mem : (s.setFlags v).mem = s.mem := rfl
@[simp] theorem setFlags_st : (s.setFlags v).st = s.st := rfl
@[simp] theorem setFlags_out : (s.setFlags v).out = s.out := rfl
@[simp] theorem setFlags_cfg : (s.setFlags v).cfg = s.cfg := rfl
end setFlags

section takeFault
variable (s : State) (r : FaultRecord)
@[simp] theorem takeFault_regs : (s.takeFault r).regs = s.regs := rfl
@[simp] theorem takeFault_reg (d : Fin 8) : (s.takeFault r).reg d = s.reg d := rfl
@[simp] theorem takeFault_sp : (s.takeFault r).sp = s.sp := rfl
@[simp] theorem takeFault_pc : (s.takeFault r).pc = s.pc := rfl
@[simp] theorem takeFault_fl : (s.takeFault r).fl = s.fl := rfl
@[simp] theorem takeFault_mem : (s.takeFault r).mem = s.mem := rfl
@[simp] theorem takeFault_st : (s.takeFault r).st = .faulted r := rfl
@[simp] theorem takeFault_out : (s.takeFault r).out = s.out := rfl
@[simp] theorem takeFault_cfg : (s.takeFault r).cfg = s.cfg := rfl
end takeFault

section hostView
variable {s : State}
@[simp] theorem hostView_out : s.hostView.out = s.out := rfl

/-- While the engine is Running the host sees OUT alone. -/
theorem hostView_of_running (h : s.st = .running) : s.hostView = ⟨s.out, none⟩ := by
  simp [State.hostView, State.ended, RunState.status?, h]

/-- Once the run has ended the host sees the final reading too. -/
theorem hostView_of_ended (h : s.st ≠ .running) : s.hostView = ⟨s.out, some s.finalReading⟩ := by
  cases hst : s.st with
  | running => exact absurd hst h
  | halted | faulted r => simp [State.hostView, State.ended, RunState.status?, hst]
end hostView

/-- A state built from the registers of another reads its registers the same: what every update of the other fields leaves. -/
@[simp] theorem reg_of_same_regs (s : State) (p : PcWord) (f : Byte) (m : Memory) (st : RunState) (o : List Byte)
    (c : Config) (d : Fin 8) : (State.mk s.regs p f m st o c).reg d = s.reg d := rfl

@[simp] theorem sp_of_same_regs (s : State) (p : PcWord) (f : Byte) (m : Memory) (st : RunState) (o : List Byte)
    (c : Config) : (State.mk s.regs p f m st o c).sp = s.sp := rfl

end Sys2Proof.Machine
end

