-- ==== Sys2Proof/Laws/Ops.lean ====
section
/-! SUPPORT. The shared operations, each by what it answers: the operand check, memory access, the stack pointer updates, committing, the fetch, the ALU. -/

namespace Sys2Proof.Machine

/-! ## Sequencing -/

@[simp] theorem ok_bind {α β : Type} (a : α) (f : α → Result β) : ((Except.ok a : Result α) >>= f) = f a := rfl

@[simp] theorem error_bind {α β : Type} (e : FaultRecord) (f : α → Result β) :
    ((Except.error e : Result α) >>= f) = .error e := rfl

@[simp] theorem commit_ok (s t : State) : commit s (.ok t) = .next t := rfl

@[simp] theorem commit_error (s : State) (r : FaultRecord) : commit s (.error r) = .next (s.takeFault r) := rfl

/-- Committing always answers a next state: the instruction's, or the fault's. -/
theorem commit_next {s t : State} {r : Result State} (h : commit s r = .next t) :
    r = .ok t ∨ ∃ e, r = .error e ∧ t = s.takeFault e := by
  cases r with
  | ok u => rw [commit_ok] at h; injection h with h; exact .inl (by rw [h])
  | error e => rw [commit_error] at h; injection h with h; exact .inr ⟨e, rfl, h.symm⟩

theorem raise_eq {α : Type} (cause : Cause) (info : Nat) :
    (raise cause info : Result α) = .error ⟨cause, BitVec.ofNat 9 info⟩ := rfl

theorem toNat_info_of_lt {n : Nat} (h : n < 512) : (BitVec.ofNat 9 n).toNat = n := by
  rw [BitVec.toNat_ofNat]; omega

/-! ## Operands -/

theorem regByte_toNat (d : Fin 8) : (regByte d).toNat = d.val := by
  have := d.isLt
  rw [regByte, BitVec.toNat_ofNat]; omega

theorem regByte_inj {d e : Fin 8} (h : regByte d = regByte e) : d = e := by
  have := congrArg BitVec.toNat h
  rw [regByte_toNat, regByte_toNat] at this
  exact Fin.ext this

@[simp] theorem regOperand_regByte (d : Fin 8) : regOperand (regByte d) = .ok d := by
  have h := regByte_toNat d
  have hlt : (regByte d).toNat < 8 := by omega
  simp only [regOperand, hlt, dif_pos]
  congr 1
  exact Fin.ext h

@[simp] theorem regByteOk_regByte (d : Fin 8) : regByteOk (regByte d) = true := by
  have := regByte_toNat d
  simp [regByteOk]; omega

/-- A byte is the operand byte of a register, or above 7. -/
theorem regByte_or_above (b : Byte) : (∃ d, b = regByte d) ∨ 7 < b.toNat := by
  by_cases h : b.toNat < 8
  · refine .inl ⟨⟨b.toNat, h⟩, BitVec.eq_of_toNat_eq ?_⟩
    rw [regByte_toNat]
  · exact .inr (by omega)

theorem regOperand_above {b : Byte} (h : 7 < b.toNat) :
    regOperand b = .error ⟨.outOfRange .register, BitVec.ofNat 9 b.toNat⟩ := by
  have : ¬ b.toNat < 8 := by omega
  simp [regOperand, this, raise_eq]

theorem regByteOk_above {b : Byte} (h : 7 < b.toNat) : regByteOk b = false := by
  simp [regByteOk]; omega

/-- Everything the operand check can answer. -/
theorem regOperand_cases (b : Byte) :
    (∃ d, b = regByte d ∧ regOperand b = .ok d) ∨
      (7 < b.toNat ∧ regOperand b = .error ⟨.outOfRange .register, BitVec.ofNat 9 b.toNat⟩) := by
  obtain ⟨d, rfl⟩ | h := regByte_or_above b
  · exact .inl ⟨d, rfl, regOperand_regByte d⟩
  · exact .inr ⟨h, regOperand_above h⟩

theorem trunc8_ofNat_toNat (n : Nat) : (trunc8 (n : Int)).toNat = n % 256 := by
  have h : trunc8 (n : Int) = BitVec.ofNat 8 n := by simp [trunc8]
  rw [h, BitVec.toNat_ofNat]

theorem trunc8_toNat (v : Int) : ((trunc8 v).toNat : Int) = v % 256 := by
  have h : (trunc8 v).toNat = (v % 256).toNat := by simp [trunc8, BitVec.toNat_ofInt]
  rw [h]
  omega

/-! ## Memory and the stack pointer -/

theorem memRead_of_le {s : State} {a : Nat} (h : a ≤ 255) : memRead s a = .ok (s.mem.read a) := by
  simp [memRead, h]

theorem memRead_of_gt {s : State} {a : Nat} (h : 255 < a) :
    memRead s a = .error ⟨.outOfRange .memory, BitVec.ofNat 9 a⟩ := by
  have : ¬ a ≤ 255 := by omega
  simp [memRead, this, raise_eq]

/-- A stack address is a byte, so reading one never faults (43_stack.md R99). -/
@[simp] theorem memRead_byte (s : State) (a : Byte) : memRead s a.toNat = .ok (s.mem.read a.toNat) :=
  memRead_of_le (by have := a.isLt; omega)

/-- A stack address is a byte, so writing one never faults (43_stack.md R99). -/
@[simp] theorem memWrite_byte (s : State) (a v : Byte) :
    memWrite s a.toNat v = .ok { s with mem := s.mem.write a.toNat v } := by
  have : a.toNat ≤ 255 := by have := a.isLt; omega
  simp [memWrite, this]

theorem memWrite_of_gt {s : State} {a : Nat} {v : Byte} (h : 255 < a) :
    memWrite s a v = .error ⟨.outOfRange .memory, BitVec.ofNat 9 a⟩ := by
  have : ¬ a ≤ 255 := by omega
  simp [memWrite, this, raise_eq]

/-- Everything `sp_dec` can answer. -/
theorem spDec_cases (s : State) :
    (s.sp ≠ 0 ∧ spDec s = .ok (s.setReg spIndex (s.sp - 1))) ∨
      (s.sp = 0 ∧ spDec s = .error ⟨.outOfRange .stack, 0⟩) := by
  by_cases h : s.sp = 0
  · exact .inr ⟨h, if_pos h⟩
  · exact .inl ⟨h, if_neg h⟩

/-- Everything `sp_inc` can answer. -/
theorem spInc_cases (s : State) :
    (s.sp ≠ 255 ∧ spInc s = .ok (s.setReg spIndex (s.sp + 1))) ∨
      (s.sp = 255 ∧ spInc s = .error ⟨.outOfRange .stack, 255⟩) := by
  by_cases h : s.sp = 255
  · exact .inr ⟨h, if_pos h⟩
  · exact .inl ⟨h, if_neg h⟩

/-- Everything the shared store of PUSH and CALL can answer. -/
theorem pushByte_cases (v : Byte) (s : State) :
    (s.sp ≠ 0 ∧ pushByte v s =
        .ok { s.setReg spIndex (s.sp - 1) with mem := s.mem.write (s.sp - 1).toNat v }) ∨
      (s.sp = 0 ∧ pushByte v s = .error ⟨.outOfRange .stack, 0⟩) := by
  obtain ⟨h, hd⟩ | ⟨h, hd⟩ := spDec_cases s
  · refine .inl ⟨h, ?_⟩
    rw [pushByte, hd, ok_bind, setReg_spIndex_sp, memWrite_byte, setReg_mem]
  · exact .inr ⟨h, by rw [pushByte, hd, error_bind]⟩

/-! ## The fetch -/

/-- A fetch whose three addresses exist delivers the three bytes. -/
theorem fetch_of_le {s : State} (h : s.pc.toNat + 2 ≤ 255) :
    fetch s = .ok ⟨s.mem.read s.pc.toNat, s.mem.read (s.pc.toNat + 1), s.mem.read (s.pc.toNat + 2)⟩ := by
  rw [fetch, memRead_of_le (by omega), ok_bind, memRead_of_le (by omega), ok_bind, memRead_of_le h, ok_bind]

/-- A fetch that would leave memory faults with the first address above 255. -/
theorem fetch_of_gt {s : State} (h : 255 < s.pc.toNat + 2) :
    fetch s = .error ⟨.outOfRange .memory, BitVec.ofNat 9 (max s.pc.toNat 256)⟩ := by
  unfold fetch
  by_cases h0 : 255 < s.pc.toNat
  · rw [memRead_of_gt h0, error_bind, Nat.max_eq_left (by omega)]
  · rw [memRead_of_le (by omega), ok_bind]
    by_cases h1 : 255 < s.pc.toNat + 1
    · have : s.pc.toNat + 1 = max s.pc.toNat 256 := by omega
      rw [memRead_of_gt h1, error_bind, this]
    · have : s.pc.toNat + 2 = max s.pc.toNat 256 := by omega
      rw [memRead_of_le (by omega), ok_bind, memRead_of_gt h, error_bind, this]

/-! ## The ALU -/

/-- The operations whose answer is a byte for register a, MOD apart. -/
theorem alu_value {op : Kind} (h : op ∈ [Kind.add, .sub, .mul, .and, .or, .xor, .not, .shl, .shr]) (a b : Byte) :
    ∃ v, alu op a b = .value v := by
  simp only [List.mem_cons, List.not_mem_nil, or_false] at h
  rcases h with rfl | rfl | rfl | rfl | rfl | rfl | rfl | rfl | rfl <;> exact ⟨_, rfl⟩

theorem alu_mod_of_ne (a : Byte) {b : Byte} (h : b ≠ 0) :
    alu .mod a b = .value (trunc8 ((a.toNat % b.toNat : Nat) : Int)) := if_neg h

theorem alu_mod_zero (a : Byte) : alu .mod a 0 = .fails .divisionByZero := by simp [alu]

@[simp] theorem alu_cmp (a b : Byte) : alu .cmp a b = .flags (flagsOfComparison a b) := rfl

@[simp] theorem aluWriteBack_value (op : Kind) (d : Fin 8) (rb v : Byte) (s : State) :
    aluWriteBack op d rb (.value v) s = .ok ((s.setReg d v).advance op) := rfl

@[simp] theorem aluWriteBack_flags (op : Kind) (d : Fin 8) (rb fl : Byte) (s : State) :
    aluWriteBack op d rb (.flags fl) s = .ok ((s.setFlags fl).advance op) := rfl

@[simp] theorem aluWriteBack_fails (op : Kind) (d : Fin 8) (rb : Byte) (cause : Cause) (s : State) :
    aluWriteBack op d rb (.fails cause) s = .error ⟨cause, BitVec.ofNat 9 (aluFaultInfo cause rb)⟩ := rfl

/-- A two-operand ALU instruction on registers. -/
theorem aluBinary_regs (op : Kind) (d e : Fin 8) (s : State) :
    aluBinary op (regByte d) (regByte e) s =
      aluWriteBack op d (regByte e) (alu op (s.reg d) (s.reg e)) s := by
  simp [aluBinary]

/-- A one-operand ALU instruction on a register. -/
theorem aluUnary_reg (op : Kind) (d : Fin 8) (s : State) :
    aluUnary op (regByte d) s = aluWriteBack op d 0 (alu op (s.reg d) 0) s := by
  simp [aluUnary]

/-- Exactly one of the three flags, the others clear (42_alu.md R96). -/
theorem flagsOfComparison_cases (a b : Byte) :
    (a.toNat = b.toNat ∧ flagsOfComparison a b = 0x01) ∨ (b.toNat < a.toNat ∧ flagsOfComparison a b = 0x02) ∨
      (a.toNat < b.toNat ∧ flagsOfComparison a b = 0x04) := by
  unfold flagsOfComparison
  split
  · rename_i h; exact .inl ⟨h, rfl⟩
  · split
    · rename_i h; exact .inr (.inl ⟨h, rfl⟩)
    · exact .inr (.inr ⟨by omega, rfl⟩)

end Sys2Proof.Machine
end

