-- ==== Sys2Proof/Laws/PerInstr.lean ====
section
/-! SUPPORT. A statement made for each instruction: its encoding begins with its opcode and is as long as its kind (30_encoding.md R52, R57). -/

namespace Sys2Proof.Laws.EncodeLength

/-- The encoding is the opcode and then the operands, and its length is the length of the kind. -/
def Statement (i : Instr) : Prop :=
  ∀ c : Config, (encode c i).head? = some (c.opcodeMap.opcode i.kind) ∧ (encode c i).length = i.kind.length

theorem hlt : Statement .hlt := fun _ => ⟨rfl, rfl⟩
theorem ret : Statement .ret := fun _ => ⟨rfl, rfl⟩
theorem push (ra : Byte) : Statement (.push ra) := fun _ => ⟨rfl, rfl⟩
theorem pop (ra : Byte) : Statement (.pop ra) := fun _ => ⟨rfl, rfl⟩
theorem prn (ra : Byte) : Statement (.prn ra) := fun _ => ⟨rfl, rfl⟩
theorem call (ra : Byte) : Statement (.call ra) := fun _ => ⟨rfl, rfl⟩
theorem jmp (ra : Byte) : Statement (.jmp ra) := fun _ => ⟨rfl, rfl⟩
theorem jeq (ra : Byte) : Statement (.jeq ra) := fun _ => ⟨rfl, rfl⟩
theorem jne (ra : Byte) : Statement (.jne ra) := fun _ => ⟨rfl, rfl⟩
theorem not (ra : Byte) : Statement (.not ra) := fun _ => ⟨rfl, rfl⟩
theorem ldi (ra imm : Byte) : Statement (.ldi ra imm) := fun _ => ⟨rfl, rfl⟩
theorem add (ra rb : Byte) : Statement (.add ra rb) := fun _ => ⟨rfl, rfl⟩
theorem sub (ra rb : Byte) : Statement (.sub ra rb) := fun _ => ⟨rfl, rfl⟩
theorem mul (ra rb : Byte) : Statement (.mul ra rb) := fun _ => ⟨rfl, rfl⟩
theorem mod (ra rb : Byte) : Statement (.mod ra rb) := fun _ => ⟨rfl, rfl⟩
theorem cmp (ra rb : Byte) : Statement (.cmp ra rb) := fun _ => ⟨rfl, rfl⟩
theorem and (ra rb : Byte) : Statement (.and ra rb) := fun _ => ⟨rfl, rfl⟩
theorem or (ra rb : Byte) : Statement (.or ra rb) := fun _ => ⟨rfl, rfl⟩
theorem xor (ra rb : Byte) : Statement (.xor ra rb) := fun _ => ⟨rfl, rfl⟩
theorem shl (ra rb : Byte) : Statement (.shl ra rb) := fun _ => ⟨rfl, rfl⟩
theorem shr (ra rb : Byte) : Statement (.shr ra rb) := fun _ => ⟨rfl, rfl⟩

end Sys2Proof.Laws.EncodeLength
end

