-- ==== Sys2Proof/Laws/Step.lean ====
section
/-! SUPPORT. What an instruction and a step can do, said once: every next state is a fault's or one of the effects below. Proofs about all instructions start from `exec_cases` and `step_cases`. -/

namespace Sys2Proof.Machine

/-- What an instruction that does not fault leaves: the shape of its next state. -/
def Effect (i : Instr) (s t : State) : Prop :=
  match i with
  | .hlt => t = { s with st := .halted }
  | .ret => s.sp ≠ 255 ∧ t = (s.setReg spIndex (s.sp + 1)).jump (s.mem.read s.sp.toNat)
  | .push ra => ∃ d, ra = regByte d ∧ s.sp ≠ 0 ∧
      t = State.advance { s.setReg spIndex (s.sp - 1) with mem := s.mem.write (s.sp - 1).toNat (s.reg d) } .push
  | .pop ra => ∃ d u, ra = regByte d ∧ u = s.setReg d (s.mem.read s.sp.toNat) ∧ u.sp ≠ 255 ∧
      t = (u.setReg spIndex (u.sp + 1)).advance .pop
  | .prn ra => ∃ d, ra = regByte d ∧ t = (s.emit (s.reg d)).advance .prn
  | .call ra => ∃ d, ra = regByte d ∧ s.sp ≠ 0 ∧
      t = State.jump { s.setReg spIndex (s.sp - 1) with mem := s.mem.write (s.sp - 1).toNat (returnAddress s) } (s.reg d)
  | .jmp ra => ∃ d, ra = regByte d ∧ t = s.jump (s.reg d)
  | .jeq ra => ∃ d, ra = regByte d ∧ t = if testFlags s.fl .equal then s.jump (s.reg d) else s.advance .jeq
  | .jne ra => ∃ d, ra = regByte d ∧ t = if testFlags s.fl .notEqual then s.jump (s.reg d) else s.advance .jne
  | .not ra => ∃ d v, ra = regByte d ∧ alu .not (s.reg d) 0 = .value v ∧ t = (s.setReg d v).advance .not
  | .ldi ra imm => ∃ d, ra = regByte d ∧ t = (s.setReg d imm).advance .ldi
  | .cmp ra rb => ∃ d e, ra = regByte d ∧ rb = regByte e ∧
      t = (s.setFlags (flagsOfComparison (s.reg d) (s.reg e))).advance .cmp
  | .add ra rb => ∃ d e v, ra = regByte d ∧ rb = regByte e ∧ alu .add (s.reg d) (s.reg e) = .value v ∧
      t = (s.setReg d v).advance .add
  | .sub ra rb => ∃ d e v, ra = regByte d ∧ rb = regByte e ∧ alu .sub (s.reg d) (s.reg e) = .value v ∧
      t = (s.setReg d v).advance .sub
  | .mul ra rb => ∃ d e v, ra = regByte d ∧ rb = regByte e ∧ alu .mul (s.reg d) (s.reg e) = .value v ∧
      t = (s.setReg d v).advance .mul
  | .mod ra rb => ∃ d e v, ra = regByte d ∧ rb = regByte e ∧ alu .mod (s.reg d) (s.reg e) = .value v ∧
      t = (s.setReg d v).advance .mod
  | .and ra rb => ∃ d e v, ra = regByte d ∧ rb = regByte e ∧ alu .and (s.reg d) (s.reg e) = .value v ∧
      t = (s.setReg d v).advance .and
  | .or ra rb => ∃ d e v, ra = regByte d ∧ rb = regByte e ∧ alu .or (s.reg d) (s.reg e) = .value v ∧
      t = (s.setReg d v).advance .or
  | .xor ra rb => ∃ d e v, ra = regByte d ∧ rb = regByte e ∧ alu .xor (s.reg d) (s.reg e) = .value v ∧
      t = (s.setReg d v).advance .xor
  | .shl ra rb => ∃ d e v, ra = regByte d ∧ rb = regByte e ∧ alu .shl (s.reg d) (s.reg e) = .value v ∧
      t = (s.setReg d v).advance .shl
  | .shr ra rb => ∃ d e v, ra = regByte d ∧ rb = regByte e ∧ alu .shr (s.reg d) (s.reg e) = .value v ∧
      t = (s.setReg d v).advance .shr

/-- The first register operand byte above 7 of an instruction, if there is one (40_cycle.md R72). -/
def badRegister? (i : Instr) : Option Byte :=
  if i.kind.usesRa && !regByteOk (i.operands.getD 0 0) then some (i.operands.getD 0 0)
  else if i.kind.usesRb && !regByteOk (i.operands.getD 1 0) then some (i.operands.getD 1 0)
  else none

/-- The bad register index of a decoded instruction, from its operand bytes. -/
theorem badRegister?_instr (k : Kind) (b1 b2 : Byte) :
    badRegister? (k.instr b1 b2) =
      if k.usesRa && !regByteOk b1 then some b1 else if k.usesRb && !regByteOk b2 then some b2 else none := by
  cases k <;> rfl

/-- An instruction has a bad register index exactly where it is not well formed in its registers. -/
theorem badRegister?_eq_none (i : Instr) : badRegister? i = none ↔ i.registersOk = true := by
  have two : ∀ ra rb : Byte, (if regByteOk ra = false then some ra
      else if regByteOk rb = false then some rb else none) = none ↔ regByteOk ra = true ∧ regByteOk rb = true :=
    fun ra rb => by cases regByteOk ra <;> cases regByteOk rb <;> simp
  cases i <;>
    simp [badRegister?, Instr.registersOk, Instr.kind, Instr.operands, Kind.usesRa, Kind.usesRb, Kind.format, two]

/-- A fault an instruction raises after its operand check, with its record: MOD's or a stack bound (60_exceptions.md R108). -/
def OwnFault (i : Instr) (s : State) (r : FaultRecord) : Prop :=
  (∃ d e, i = .mod (regByte d) (regByte e) ∧ s.reg e = 0 ∧ r = ⟨.divisionByZero, BitVec.ofNat 9 e.val⟩) ∨
    ((i.kind = .push ∨ i.kind = .call) ∧ s.sp = 0 ∧ r = ⟨.outOfRange .stack, 0⟩) ∨
    ((i.kind = .pop ∨ i.kind = .ret) ∧ raisesOwnFault i s ∧ r = ⟨.outOfRange .stack, 255⟩)

/-- The SP that POP's `sp_inc` reads: the popped byte for R7, else the SP before (43_stack.md R101). -/
theorem sp_setReg_regByte (d : Fin 8) (v : Byte) (s : State) :
    (s.setReg d v).sp = if regByte d = regByte 7 then v else s.sp := by
  change _ = if regByte d = regByte spIndex then v else s.sp
  by_cases h : d = spIndex
  · rw [h, setReg_spIndex_sp, if_pos rfl]
  · rw [setReg_sp_of_ne s d v h, if_neg fun e => h (regByte_inj e)]

/-- An own fault is raised only where its condition holds. -/
theorem raisesOwnFault_of_ownFault {i : Instr} {s : State} {r : FaultRecord} (h : OwnFault i s r) : raisesOwnFault i s := by
  obtain ⟨d, e, rfl, hz, -⟩ | ⟨hk, hs, -⟩ | ⟨-, h, -⟩ := h
  · exact ⟨e, rfl, hz⟩
  · cases i <;> first | exact hs | simp [Instr.kind] at hk
  · exact h

/-- Where an instruction has its effect, the condition of its own fault does not hold. -/
theorem not_raisesOwnFault_of_effect {i : Instr} {s t : State} (h : Effect i s t) : ¬ raisesOwnFault i s := by
  cases i with
  | mod ra rb =>
    obtain ⟨d, e, v, rfl, rfl, hv, -⟩ := h
    rintro ⟨e', he, hz⟩
    rw [regByte_inj he, hz, alu_mod_zero] at hv
    cases hv
  | push ra | call ra => obtain ⟨d, -, hs, -⟩ := h; exact hs
  | pop ra =>
    obtain ⟨d, u, rfl, rfl, hs, -⟩ := h
    exact fun hr => hs ((sp_setReg_regByte d _ s).trans hr)
  | ret => exact h.1
  | _ => exact id

/-- Everything an instruction can do: fault on its first bad register index, raise its own fault, or have its effect. -/
inductive ExecCase (i : Instr) (s t : State) : Prop where
  | badRegister (b : Byte) (h : badRegister? i = some b) (above : 7 < b.toNat)
      (ht : t = s.takeFault ⟨.outOfRange .register, BitVec.ofNat 9 b.toNat⟩)
  | ownFault (r : FaultRecord) (ok : badRegister? i = none) (h : OwnFault i s r) (ht : t = s.takeFault r)
  | effect (ok : badRegister? i = none) (h : Effect i s t)

/-- The operand check of a two-register instruction. -/
theorem binary_cases (op : Kind) (ra rb : Byte) (s : State) :
    (∃ d e, ra = regByte d ∧ rb = regByte e ∧
      aluBinary op ra rb s = aluWriteBack op d rb (alu op (s.reg d) (s.reg e)) s) ∨
    (7 < ra.toNat ∧ aluBinary op ra rb s = .error ⟨.outOfRange .register, BitVec.ofNat 9 ra.toNat⟩) ∨
    (∃ d, ra = regByte d ∧ 7 < rb.toNat ∧
      aluBinary op ra rb s = .error ⟨.outOfRange .register, BitVec.ofNat 9 rb.toNat⟩) := by
  obtain ⟨d, rfl, hd⟩ | ⟨ha, hd⟩ := regOperand_cases ra
  · obtain ⟨e, rfl, he⟩ | ⟨hb, he⟩ := regOperand_cases rb
    · exact .inl ⟨d, e, rfl, rfl, aluBinary_regs op d e s⟩
    · exact .inr (.inr ⟨d, rfl, hb, by simp [aluBinary, he]⟩)
  · exact .inr (.inl ⟨ha, by simp [aluBinary, hd]⟩)

/-- Everything a two-register instruction can do, from what the ALU answers on its registers. -/
theorem binary_exec_cases {op : Kind} {i : Instr} {ra rb : Byte} {s t : State} (hop : op.usesRa = true ∧ op.usesRb = true)
    (hk : i.kind = op) (ho : i.operands = [ra, rb])
    (hok : ∀ d e, ra = regByte d → rb = regByte e → badRegister? i = none →
      commit s (aluWriteBack op d rb (alu op (s.reg d) (s.reg e)) s) = .next t → ExecCase i s t)
    (h : commit s (aluBinary op ra rb s) = .next t) : ExecCase i s t := by
  obtain ⟨d, e, rfl, rfl, hd⟩ | ⟨ha, hd⟩ | ⟨d, rfl, hb, hd⟩ := binary_cases op ra rb s
  · rw [hd] at h
    exact hok d e rfl rfl (by simp [badRegister?, hk, ho, hop]) h
  · rw [hd, commit_error] at h; injection h with h
    exact .badRegister ra (by simp [badRegister?, hk, ho, hop, regByteOk_above ha]) ha h.symm
  · rw [hd, commit_error] at h; injection h with h
    exact .badRegister rb (by simp [badRegister?, hk, ho, hop, regByteOk_above hb]) hb h.symm

/-- Everything a one-register instruction can do, from what it does on a register. -/
theorem unary_exec_cases {i : Instr} {ra : Byte} {s t : State} {f : Fin 8 → Result State}
    (hka : i.kind.usesRa = true) (hkb : i.kind.usesRb = false) (ho : i.operands.getD 0 0 = ra)
    (hok : ∀ d, ra = regByte d → badRegister? i = none → commit s (f d) = .next t → ExecCase i s t)
    (h : commit s (regOperand ra >>= f) = .next t) : ExecCase i s t := by
  obtain ⟨d, rfl, hd⟩ | ⟨ha, hd⟩ := regOperand_cases ra
  · rw [hd, ok_bind] at h
    refine hok d rfl ?_ h
    unfold badRegister?
    rw [ho]; simp [hka, hkb]
  · rw [hd, error_bind, commit_error] at h; injection h with h
    refine .badRegister ra ?_ ha h.symm
    unfold badRegister?
    rw [ho]; simp [hka, regByteOk_above ha]

/-- The inversion of `exec`. -/
theorem exec_cases {i : Instr} {s t : State} (h : exec i s = .next t) : ExecCase i s t := by
  cases i with
  | hlt =>
    injection h with h
    exact .effect rfl h.symm
  | ret =>
    change commit s (memRead s s.sp.toNat >>= fun v => spInc s >>= fun u => .ok (u.jump v)) = .next t at h
    rw [memRead_byte, ok_bind] at h
    obtain ⟨hs, hi⟩ | ⟨hs, hi⟩ := spInc_cases s
    · rw [hi, ok_bind, commit_ok] at h; injection h with h
      exact .effect rfl ⟨hs, h.symm⟩
    · rw [hi, error_bind, commit_error] at h; injection h with h
      exact .ownFault _ rfl (.inr (.inr ⟨.inr rfl, hs, rfl⟩)) h.symm
  | push ra =>
    refine unary_exec_cases rfl rfl rfl (fun d hd hok h => ?_) h
    obtain ⟨hs, hp⟩ | ⟨hs, hp⟩ := pushByte_cases (s.reg d) s
    · rw [hp, ok_bind, commit_ok] at h; injection h with h
      exact .effect hok ⟨d, hd, hs, h.symm⟩
    · rw [hp, error_bind, commit_error] at h; injection h with h
      exact .ownFault _ hok (.inr (.inl ⟨.inl rfl, hs, rfl⟩)) h.symm
  | call ra =>
    refine unary_exec_cases rfl rfl rfl (fun d hd hok h => ?_) h
    obtain ⟨hs, hp⟩ | ⟨hs, hp⟩ := pushByte_cases (returnAddress s) s
    · rw [hp, ok_bind, commit_ok] at h; injection h with h
      exact .effect hok ⟨d, hd, hs, h.symm⟩
    · rw [hp, error_bind, commit_error] at h; injection h with h
      exact .ownFault _ hok (.inr (.inl ⟨.inr rfl, hs, rfl⟩)) h.symm
  | pop ra =>
    refine unary_exec_cases rfl rfl rfl (fun d hd hok h => ?_) h
    rw [memRead_byte, ok_bind] at h
    obtain ⟨hs, hi⟩ | ⟨hs, hi⟩ := spInc_cases (s.setReg d (s.mem.read s.sp.toNat))
    · rw [hi, ok_bind, commit_ok] at h; injection h with h
      exact .effect hok ⟨d, _, hd, rfl, hs, h.symm⟩
    · rw [hi, error_bind, commit_error] at h; injection h with h
      refine .ownFault _ hok (.inr (.inr ⟨.inl rfl, ?_, rfl⟩)) h.symm
      rw [show ra = regByte d from hd]
      exact (sp_setReg_regByte d _ s).symm.trans hs
  | prn ra =>
    refine unary_exec_cases rfl rfl rfl (fun d hd hok h => ?_) h
    injection h with h
    exact .effect hok ⟨d, hd, h.symm⟩
  | jmp ra =>
    refine unary_exec_cases rfl rfl rfl (fun d hd hok h => ?_) h
    injection h with h
    exact .effect hok ⟨d, hd, h.symm⟩
  | jeq ra =>
    refine unary_exec_cases rfl rfl rfl (fun d hd hok h => ?_) h
    refine .effect hok ⟨d, hd, ?_⟩
    split at h <;> (rename_i hc; rw [commit_ok] at h; injection h with h; simp [hc, h])
  | jne ra =>
    refine unary_exec_cases rfl rfl rfl (fun d hd hok h => ?_) h
    refine .effect hok ⟨d, hd, ?_⟩
    split at h <;> (rename_i hc; rw [commit_ok] at h; injection h with h; simp [hc, h])
  | not ra =>
    refine unary_exec_cases rfl rfl rfl (fun d hd hok h => ?_) h
    injection h with h
    exact .effect hok ⟨d, _, hd, rfl, h.symm⟩
  | ldi ra imm =>
    refine unary_exec_cases rfl rfl rfl (fun d hd hok h => ?_) h
    injection h with h
    exact .effect hok ⟨d, hd, h.symm⟩
  | cmp ra rb =>
    refine binary_exec_cases (op := .cmp) ⟨rfl, rfl⟩ rfl rfl (fun d e hd he hok h => ?_) h
    rw [alu_cmp, aluWriteBack_flags, commit_ok] at h; injection h with h
    exact .effect hok ⟨d, e, hd, he, h.symm⟩
  | mod ra rb =>
    refine binary_exec_cases (op := .mod) ⟨rfl, rfl⟩ rfl rfl (fun d e hd he hok h => ?_) h
    by_cases hz : s.reg e = 0
    · rw [hz, alu_mod_zero, aluWriteBack_fails, commit_error] at h; injection h with ht
      subst hd; subst he
      exact .ownFault _ hok (.inl ⟨d, e, rfl, hz, rfl⟩) (by rw [← ht, aluFaultInfo, regByte_toNat])
    · rw [alu_mod_of_ne _ hz, aluWriteBack_value, commit_ok] at h; injection h with h
      exact .effect hok ⟨d, e, _, hd, he, alu_mod_of_ne _ hz, h.symm⟩
  | add ra rb | sub ra rb | mul ra rb | and ra rb | or ra rb | xor ra rb | shl ra rb | shr ra rb =>
    refine binary_exec_cases ⟨rfl, rfl⟩ rfl rfl (fun d e hd he hok h => ?_) h
    injection h with h
    exact .effect hok ⟨d, e, _, hd, he, rfl, h.symm⟩

/-- Whatever the instruction and the state, `exec` answers a next state. -/
theorem exec_total (i : Instr) (s : State) : ∃ t, exec i s = .next t := by
  have hc : ∀ r : Result State, ∃ t, commit s r = .next t := fun r => by cases r <;> exact ⟨_, rfl⟩
  cases i <;> (unfold exec; exact hc _)

/-- Everything a step can do: fault in the fetch, fault in the decode, or run the instruction at PC. -/
inductive StepCase (s t : State) : Prop where
  | fetchFault (pc : 253 < s.pc.toNat)
      (ht : t = s.takeFault ⟨.outOfRange .memory, BitVec.ofNat 9 (max s.pc.toNat 256)⟩)
  | illegal (pc : s.pc.toNat ≤ 253) (h : s.cfg.kindOf? s.bytesAtPc.b0 = none)
      (ht : t = s.takeFault ⟨.unknownOpcode, BitVec.ofNat 9 s.bytesAtPc.b0.toNat⟩)
  | runs (i : Instr) (at_pc : s.executes i) (h : exec i s = .next t)

theorem step_of_executes {s : State} {i : Instr} (h : s.executes i) : step s = exec i s := by
  obtain ⟨hr, hp, hd⟩ := h
  unfold step
  rw [hr]
  simp only [fetch_of_le hp]
  change (match decode s.cfg s.bytesAtPc with
    | .illegal b0 => raiseUnknownOpcode s b0
    | .instr i => exec i s) = _
  rw [hd]

theorem step_of_fetchFault {s : State} (hr : s.st = .running) (hp : 253 < s.pc.toNat) :
    step s = .next (s.takeFault ⟨.outOfRange .memory, BitVec.ofNat 9 (max s.pc.toNat 256)⟩) := by
  unfold step
  rw [hr]
  simp only [fetch_of_gt (show 255 < s.pc.toNat + 2 by omega), commit_error]

theorem step_of_illegal {s : State} (hr : s.st = .running) (hp : s.pc.toNat ≤ 253)
    (h : s.cfg.kindOf? s.bytesAtPc.b0 = none) :
    step s = .next (s.takeFault ⟨.unknownOpcode, BitVec.ofNat 9 s.bytesAtPc.b0.toNat⟩) := by
  unfold step
  rw [hr]
  simp only [fetch_of_le (show s.pc.toNat + 2 ≤ 255 by omega)]
  change (match decode s.cfg s.bytesAtPc with
    | .illegal b0 => raiseUnknownOpcode s b0
    | .instr i => exec i s) = _
  rw [decode_of_kindOf?_none h]
  rfl

/-- The three ways a Running engine's step goes. -/
theorem running_cases {s : State} (hr : s.st = .running) :
    253 < s.pc.toNat ∨ (s.pc.toNat ≤ 253 ∧ s.cfg.kindOf? s.bytesAtPc.b0 = none) ∨ ∃ i, s.executes i := by
  by_cases hp : 253 < s.pc.toNat
  · exact .inl hp
  · cases hk : s.cfg.kindOf? s.bytesAtPc.b0 with
    | none => exact .inr (.inl ⟨by omega, rfl⟩)
    | some k => exact .inr (.inr ⟨_, hr, by omega, decode_of_kindOf? hk⟩)

/-- The inversion of `step`. -/
theorem step_cases {s t : State} (h : step s = .next t) : s.st = .running ∧ StepCase s t := by
  have hr : s.st = .running := by
    unfold step at h
    split at h
    · cases h
    · cases h
    · assumption
  refine ⟨hr, ?_⟩
  obtain hp | ⟨hp, hk⟩ | ⟨i, hi⟩ := running_cases hr
  · rw [step_of_fetchFault hr hp] at h; injection h with h
    exact .fetchFault hp h.symm
  · rw [step_of_illegal hr hp hk] at h; injection h with h
    exact .illegal hp hk h.symm
  · rw [step_of_executes hi] at h
    exact .runs i hi h

/-! ## Runs of the machine behind the host's interface -/

@[simp] theorem run_zero (s : State) : Host.Core.run Sys2Proof.core 0 s = .next s := rfl

/-- A run of one step more, for any machine. -/
theorem run_succ (M : Host.Core) (k : Nat) (s : M.State) :
    M.run (k + 1) s = match M.step s with
      | .next t => M.run k t
      | .fault r => .fault r
      | .refused r => .refused r := rfl

/-- A run of one step more begins with a step. -/
theorem run_succ_of_next {s u : State} (k : Nat) (h : step s = .next u) :
    Host.Core.run Sys2Proof.core (k + 1) s = Host.Core.run Sys2Proof.core k u := by
  have h' : Sys2Proof.core.step s = .next u := h
  have := run_succ Sys2Proof.core k s
  rwa [h'] at this

/-- A run that answers a next state after one step or more took that step. -/
theorem run_succ_inv {s t : State} {k : Nat} (h : Host.Core.run Sys2Proof.core (k + 1) s = .next t) :
    ∃ u, step s = .next u ∧ Host.Core.run Sys2Proof.core k u = .next t := by
  have hrun := run_succ Sys2Proof.core k s
  cases hs : step s with
  | next u => exact ⟨u, rfl, (run_succ_of_next k hs).symm.trans h⟩
  | fault r =>
    have h' : Sys2Proof.core.step s = .fault r := hs
    rw [h'] at hrun; exact absurd (hrun.symm.trans h) (by simp)
  | refused r =>
    have h' : Sys2Proof.core.step s = .refused r := hs
    rw [h'] at hrun; exact absurd (hrun.symm.trans h) (by simp)

end Sys2Proof.Machine
end

