-- ==== Sys2Proof/Tests/Slice0.lean ====
section
/-! SUPPORT. The model's own tests: well-formedness refusals, one word for every constructor written from 30_encoding.md R60, single steps from the vectors of 95_test_vectors.md, and a witness for the hypotheses of every statement that has some. -/

namespace Sys2Proof.Tests

open Sys2Proof Sys2Proof.Machine

/-! ## Helpers -/

/-- A Running state: PC, the eight registers, FL, and bytes placed from PC. -/
def stateWith (pc : PcWord) (x : Vector Byte 8) (fl : Byte) (bytes : List Byte) : State :=
  { State.reset with pc := pc, regs := x, fl := fl, mem := Memory.place [] pc.toNat bytes }

/-- The reset registers but for x[0] and x[1]. -/
def two (a b : Byte) : Vector Byte 8 := #v[a, b, 0, 0, 0, 0, 0, 244]

/-- The reset registers but for x[1], x[2] and SP. -/
def withSp (b c sp : Byte) : Vector Byte 8 := #v[0, b, c, 12, 0, 0, 0, sp]

def next? (o : Host.Outcome State Fault Refusal) : Option State :=
  match o with
  | .next t => some t
  | .fault _ => none
  | .refused _ => none

/-- One step, seen through a function of the next state. -/
def look {α : Type} (s : State) (f : State → α) : Option α := (next? (step s)).map f

/-- The same machine with EXT_SUB on. -/
def withSub (s : State) : State := { s with cfg := Config.wholeTable }

/-! ## Well-formedness: what the checks refuse -/

theorem test_wf_accepts_registers : (Instr.add 7 0).wellFormed Config.default = true := by decide
theorem test_wf_any_immediate : (Instr.ldi 7 255).wellFormed Config.default = true := by decide
theorem test_wf_refuses_ra_above_seven : (Instr.ldi 8 0).wellFormed Config.default = false := by decide
theorem test_wf_refuses_rb_above_seven : (Instr.cmp 0 8).wellFormed Config.default = false := by decide
theorem test_wf_refuses_sub_without_option : (Instr.sub 0 1).wellFormed Config.default = false := by decide
theorem test_wf_accepts_sub_with_option : (Instr.sub 0 1).wellFormed Config.wholeTable = true := by decide
theorem test_config_refuses_shared_opcode :
    Config.wf { Config.default with opcodeMap := { OpcodeMap.default with ret := 0x01 } } = false := by decide
theorem test_memory_wf_refuses_zero_entry : Memory.wf [(3, 0)] = false := by decide
theorem test_memory_wf_refuses_falling_addresses : Memory.wf [(5, 1), (4, 1)] = false := by decide
theorem test_memory_wf_refuses_absent_address : Memory.wf [(256, 1)] = false := by decide

/-! ## Decoding: the words of the table, bit by bit (30_encoding.md R60; formats R53) -/

theorem test_decode_hlt : decode Config.default ⟨0b00000001, 0xAA, 0xBB⟩ = .instr .hlt := by decide
theorem test_decode_ret : decode Config.default ⟨0b00010001, 0x00, 0x00⟩ = .instr .ret := by decide
theorem test_decode_push : decode Config.default ⟨0b01000101, 0x01, 0x00⟩ = .instr (.push 1) := by decide
theorem test_decode_pop : decode Config.default ⟨0b01000110, 0x02, 0x00⟩ = .instr (.pop 2) := by decide
theorem test_decode_prn : decode Config.default ⟨0b01000111, 0x04, 0xFF⟩ = .instr (.prn 4) := by decide
theorem test_decode_call : decode Config.default ⟨0b01010000, 0x02, 0x00⟩ = .instr (.call 2) := by decide
theorem test_decode_jmp : decode Config.default ⟨0b01010100, 0x00, 0x00⟩ = .instr (.jmp 0) := by decide
theorem test_decode_jeq : decode Config.default ⟨0b01010101, 0x03, 0x00⟩ = .instr (.jeq 3) := by decide
theorem test_decode_jne : decode Config.default ⟨0b01010110, 0x03, 0x00⟩ = .instr (.jne 3) := by decide
theorem test_decode_not : decode Config.default ⟨0b01101001, 0x02, 0xFF⟩ = .instr (.not 2) := by decide
theorem test_decode_ldi : decode Config.default ⟨0b10000010, 0x00, 0x08⟩ = .instr (.ldi 0 8) := by decide
theorem test_decode_add : decode Config.default ⟨0b10100000, 0x00, 0x01⟩ = .instr (.add 0 1) := by decide
theorem test_decode_sub : decode Config.wholeTable ⟨0b10100001, 0x00, 0x01⟩ = .instr (.sub 0 1) := by decide
theorem test_decode_mul : decode Config.default ⟨0b10100010, 0x00, 0x01⟩ = .instr (.mul 0 1) := by decide
theorem test_decode_mod : decode Config.default ⟨0b10100100, 0x00, 0x09⟩ = .instr (.mod 0 9) := by decide
theorem test_decode_cmp : decode Config.default ⟨0b10100111, 0x00, 0x02⟩ = .instr (.cmp 0 2) := by decide
theorem test_decode_and : decode Config.default ⟨0b10101000, 0x00, 0x01⟩ = .instr (.and 0 1) := by decide
theorem test_decode_or : decode Config.default ⟨0b10101010, 0x00, 0x01⟩ = .instr (.or 0 1) := by decide
theorem test_decode_xor : decode Config.default ⟨0b10101011, 0x00, 0x01⟩ = .instr (.xor 0 1) := by decide
theorem test_decode_shl : decode Config.default ⟨0b10101100, 0x00, 0x02⟩ = .instr (.shl 0 2) := by decide
theorem test_decode_shr : decode Config.default ⟨0b10101101, 0x00, 0x03⟩ = .instr (.shr 0 3) := by decide
theorem test_decode_zero_is_illegal : decode Config.default ⟨0b00000000, 0, 0⟩ = .illegal 0 := by decide
theorem test_decode_sub_needs_option : decode Config.default ⟨0b10100001, 0, 1⟩ = .illegal 0xA1 := by decide
theorem test_decode_A1_gated_under_another_map :
    decode { Config.default with opcodeMap := { OpcodeMap.default with add := 0xA1, sub := 0xA0 } } ⟨0xA1, 0, 1⟩ = .illegal 0xA1 := by decide
theorem test_encode_ldi : encode Config.default (.ldi 0 8) = [0x82, 0x00, 0x08] := by decide
theorem test_table_word_ldi : decodeTableWord 24 0x080082 = some (.ldi 0 8) := by decide
theorem test_table_word_short : decodeTableWord 8 0x0045 = some (.push 0) := by decide
theorem test_assembly_mul : (Instr.mul 0 1).assembly = "MUL R0,R1" := by decide

/-! ## Single steps (95_test_vectors.md; the vector's number in each name) -/

theorem test_V2_ldi_sp : look (stateWith 0 (two 0 0) 0 [0x82, 0x07, 0x10]) (fun t => (t.sp, t.pc)) = some (16, 3) := by decide
theorem test_V4_ldi_at_253 : look (stateWith 253 (two 0 0) 0 [0x82, 0x01, 0x2A]) (fun t => (t.reg 1, t.pc)) = some (42, 256) := by decide
theorem test_V4_then_fault : look (stateWith 256 (two 0 0) 0 []) (fun t => (t.st, t.pc)) =
    some (.faulted ⟨.outOfRange .memory, 256⟩, 256) := by decide
theorem test_V5_prn : look (stateWith 0 (two 0 0) 0 [0x47, 0x04, 0xFF]) (fun t => (t.out, t.pc)) = some ([0], 2) := by decide
theorem test_V6_hlt : look (stateWith 11 (two 0 0) 0 [0x01]) (fun t => (t.st, t.pc)) = some (.halted, 11) := by decide
theorem test_V7_hlt_at_254 : look (stateWith 254 (two 0 0) 0 [0x01]) (fun t => (t.st, t.pc)) =
    some (.faulted ⟨.outOfRange .memory, 256⟩, 254) := by decide
theorem test_V11_add_wraps : look (stateWith 0 (two 255 1) 4 [0xA0, 0x00, 0x01]) (fun t => (t.reg 0, t.fl, t.pc)) = some (0, 4, 3) := by decide
theorem test_V13_add_same : look (stateWith 0 (two 100 0) 0 [0xA0, 0x00, 0x00]) (fun t => t.reg 0) = some 200 := by decide
theorem test_V14_sub_off : look (stateWith 0 (two 5 7) 0 [0xA1, 0x00, 0x01]) (fun t => (t.reg 0, t.st)) =
    some (5, .faulted ⟨.unknownOpcode, 0xA1⟩) := by decide
theorem test_V15_sub_on : look (withSub (stateWith 0 (two 5 7) 0 [0xA1, 0x00, 0x01])) (fun t => (t.reg 0, t.pc)) = some (254, 3) := by decide
theorem test_V17_mul : look (stateWith 0 (two 8 9) 0 [0xA2, 0x00, 0x01]) (fun t => t.reg 0) = some 72 := by decide
theorem test_V19_mul_low_byte : look (stateWith 0 (two 255 255) 0 [0xA2, 0x00, 0x01]) (fun t => t.reg 0) = some 1 := by decide
theorem test_V20_mod : look (stateWith 0 (two 7 3) 0 [0xA4, 0x00, 0x01]) (fun t => t.reg 0) = some 1 := by decide
theorem test_V22_mod_zero : look (stateWith 0 (two 5 0) 0 [0xA4, 0x00, 0x01]) (fun t => (t.reg 0, t.st, t.pc)) =
    some (5, .faulted ⟨.divisionByZero, 1⟩, 0) := by decide
theorem test_V26_and : look (stateWith 0 (two 0xCC 0xAA) 0 [0xA8, 0x00, 0x01]) (fun t => t.reg 0) = some 0x88 := by decide
theorem test_V27_or : look (stateWith 0 (two 0xCC 0xAA) 0 [0xAA, 0x00, 0x01]) (fun t => t.reg 0) = some 0xEE := by decide
theorem test_V28_xor : look (stateWith 0 (two 0xCC 0xAA) 0 [0xAB, 0x00, 0x01]) (fun t => t.reg 0) = some 0x66 := by decide
theorem test_V30_not : look (stateWith 0 (two 0x0F 0) 0 [0x69, 0x00, 0xFF]) (fun t => (t.reg 0, t.pc)) = some (0xF0, 2) := by decide
theorem test_V33_shl : look (stateWith 0 (two 0x81 1) 0 [0xAC, 0x00, 0x01]) (fun t => t.reg 0) = some 2 := by decide
theorem test_V34_shl_by_eight : look (stateWith 0 (two 1 8) 0 [0xAC, 0x00, 0x01]) (fun t => t.reg 0) = some 0 := by decide
theorem test_V36_shr : look (stateWith 0 (two 0x80 7) 0 [0xAD, 0x00, 0x01]) (fun t => t.reg 0) = some 1 := by decide
theorem test_V38_shr_by_255 : look (stateWith 0 (two 0xFF 255) 0 [0xAD, 0x00, 0x01]) (fun t => t.reg 0) = some 0 := by decide
theorem test_V41_cmp_less : look (stateWith 0 (two 3 5) 2 [0xA7, 0x00, 0x01]) (fun t => (t.fl, t.reg 0, t.pc)) = some (4, 3, 3) := by decide
theorem test_V42_cmp_unsigned : look (stateWith 0 (two 0xFF 0x01) 0 [0xA7, 0x00, 0x01]) (fun t => t.fl) = some 2 := by decide
theorem test_V50_push : look (stateWith 0 (withSp 10 0 244) 0 [0x45, 0x01]) (fun t => (t.sp, t.mem.read 243, t.pc)) = some (243, 10, 2) := by decide
theorem test_V52_push_sp : look (stateWith 0 (withSp 10 0 244) 0 [0x45, 0x07]) (fun t => (t.sp, t.mem.read 243)) = some (243, 244) := by decide
theorem test_V53_pop_sp : look { stateWith 0 (withSp 0 0 243) 0 [0x46, 0x07] with mem := [(0, 0x46), (1, 7), (243, 9)] } (fun t => t.sp) = some 10 := by decide
theorem test_V55_pop_bound : look (stateWith 0 (withSp 0 0 255) 0 [0x46, 0x00]) (fun t => (t.reg 0, t.st)) =
    some (0, .faulted ⟨.outOfRange .stack, 255⟩) := by decide
theorem test_V60_call : look (stateWith 6 (withSp 0 20 244) 0 [0x50, 0x02]) (fun t => (t.sp, t.mem.read 243, t.pc)) = some (243, 8, 20) := by decide
theorem test_V62_call_sp : look (stateWith 0 (withSp 0 0 244) 0 [0x50, 0x07]) (fun t => (t.sp, t.mem.read 243, t.pc)) = some (243, 2, 244) := by decide
theorem test_V61_ret : look { stateWith 30 (withSp 0 0 243) 0 [] with mem := [(30, 0x11), (243, 8)] } (fun t => (t.sp, t.pc)) = some (244, 8) := by decide
theorem test_V64_ret_bound : look (stateWith 0 (withSp 0 0 255) 0 [0x11]) (fun t => (t.st, t.pc)) =
    some (.faulted ⟨.outOfRange .stack, 255⟩, 0) := by decide
theorem test_V65_jmp : look (stateWith 0 (two 253 0) 0 [0x54, 0x00]) (fun t => t.pc) = some 253 := by decide
theorem test_V66_jeq_taken : look (stateWith 20 (withSp 0 0 244) 1 [0x55, 0x03]) (fun t => t.pc) = some 12 := by decide
theorem test_V72_jeq_bad_register : look (stateWith 20 (withSp 0 0 244) 4 [0x55, 0x09]) (fun t => t.st) =
    some (.faulted ⟨.outOfRange .register, 9⟩) := by decide
theorem test_V68_jne_taken : look (stateWith 20 (withSp 0 0 244) 2 [0x56, 0x03]) (fun t => t.pc) = some 12 := by decide
theorem test_V69_jne_not_taken : look (stateWith 20 (withSp 0 0 244) 1 [0x56, 0x03]) (fun t => t.pc) = some 22 := by decide
theorem test_V81_unknown : look (stateWith 0 (two 0 0) 0 [0xFF]) (fun t => (t.st, t.pc)) =
    some (.faulted ⟨.unknownOpcode, 0xFF⟩, 0) := by decide
theorem test_V83_fetch_before_decode : look (stateWith 255 (two 0 0) 0 [0x00]) (fun t => t.st) =
    some (.faulted ⟨.outOfRange .memory, 256⟩) := by decide
theorem test_placed_sub_runs : look (State.reset.withFetchWord 24 0x0100A1) (fun t => t.pc) = some 3 := by decide
theorem test_no_step_after_halt : next? (step { State.reset with st := .halted }) = none := by decide
theorem test_launch_refuses_257 : launch Config.default (List.replicate 257 0) = .refused (.imageTooLong 257) := by
  unfold launch
  rw [List.length_replicate]
  exact if_neg (by decide)
theorem test_launch_places_image : (State.boot Config.default [0x82, 0x00, 0x08]).mem = [(0, 0x82), (2, 8)] := by decide
theorem test_status_codes : ((RunState.faulted ⟨.outOfRange .stack, 255⟩).mode, (RunState.faulted ⟨.outOfRange .stack, 255⟩).cause,
    (RunState.faulted ⟨.outOfRange .stack, 255⟩).kind, (RunState.faulted ⟨.outOfRange .stack, 255⟩).info) = (2, 2, 2, 255) := by decide

/-! ## Witnesses: concrete states and operands that meet the hypotheses of each statement -/

/-- LDI R1,42 at 253, the last address an instruction can start at. -/
def ldiAt253 : State := stateWith 253 (two 0 0) 0 [0x82, 0x01, 0x2A]

theorem witness_DecodeOfEncodeIsTheInstruction :
    Config.default.wf = true ∧ Config.default.decodes (Instr.ldi 255 0).kind = true := by decide

theorem witness_EncodeOfDecodeIsTheBytes : decode Config.default ⟨0x45, 0x01, 0x99⟩ = .instr (.push 1) := by decide

theorem witness_IllegalOpcodesAreTheOtherBytes : Config.wholeTable.wf = true := by decide

theorem witness_SubIsDecodedOnlyWithTheOption :
    Config.default.wf = true ∧ Config.default.extSub = false ∧ Config.wholeTable.wf = true ∧ Config.wholeTable.extSub = true := by decide

theorem witness_FetchAlwaysReadsThreeBytes :
    ldiAt253.pc.toNat + 2 ≤ 255 ∧ 255 < (stateWith 254 (two 0 0) 0 []).pc.toNat + 2 ∧
    ((⟨0x45, 1, 2⟩ : Fetched).b0 = (⟨0x45, 1, 3⟩ : Fetched).b0 ∧
      (∀ k, Config.default.kindOf? 0x45 = some k → 2 ≤ k.length → (1 : Byte) = 1) ∧
      (∀ k, Config.default.kindOf? 0x45 = some k → 3 ≤ k.length → (2 : Byte) = 3)) ∧
    decode Config.default ⟨0x45, 1, 2⟩ = .instr (.push 1) := by
  refine ⟨by decide, by decide, ⟨rfl, fun _ _ _ => rfl, fun k hk hl => ?_⟩, by decide⟩
  have h : Config.default.kindOf? 0x45 = some .push := by decide
  rw [h] at hk
  cases hk
  exact absurd hl (by decide)

/-- LDI R1,42 at 253 is executed: the boundary of every statement about the instruction at PC. -/
theorem witness_executes : ldiAt253.executes (.ldi 1 42) := ⟨rfl, by decide, by decide⟩

theorem witness_StepRunsTheDecodedInstruction :
    ldiAt253.st = .running ∧ ldiAt253.pc.toNat ≤ 253 ∧
    decode ldiAt253.cfg ⟨ldiAt253.mem.read 253, ldiAt253.mem.read 254, ldiAt253.mem.read 255⟩ = .instr (.ldi 1 42) := by decide

theorem witness_PlacedWordIsTheInstructionRun :
    State.reset.st = .running ∧ State.reset.pc.toNat ≤ 253 ∧ State.reset.mem.wf = true ∧
    State.reset.cfg.opcodeMap = OpcodeMap.default ∧ decodeTableWord 24 0x0100A1 = some (.sub 0 1) := by decide

theorem witness_StepsExactlyInRunning :
    State.reset.st = .running ∧ ({ State.reset with st := .halted } : State).st ≠ .running := by decide

theorem witness_IllegalOpcodeFaultsAtItsAddress :
    State.reset.st = .running ∧ State.reset.pc.toNat ≤ 253 ∧ State.reset.cfg.kindOf? (State.reset.mem.read State.reset.pc.toNat) = none := by decide

theorem witness_FetchBeyondMemoryFaults :
    (stateWith 254 (two 0 0) 0 [0x01]).st = .running ∧ 253 < (stateWith 254 (two 0 0) 0 [0x01]).pc.toNat := by decide

/-- A witness for each clause: HLT at 253, each way to raise a fault at its boundary, and LDI at 253, which does neither. -/
theorem witness_RunStateAfterAStep :
    (∃ t, step (stateWith 253 (two 0 0) 0 [0x01]) = .next t ∧ (stateWith 253 (two 0 0) 0 [0x01]).executes .hlt) ∧
    ((stateWith 254 (two 0 0) 0 [0x01]).raisesFault ∧ State.reset.raisesFault ∧
      (stateWith 0 (two 5 7) 0 [0xA4, 0x08, 0x01]).raisesFault ∧ (stateWith 0 (two 5 0) 0 [0xA4, 0x00, 0x01]).raisesFault ∧
      (stateWith 1 (withSp 0 0 0) 0 [0x45, 0x01]).raisesFault) ∧
    (∃ t, step ldiAt253 = .next t ∧ ¬ ldiAt253.executes .hlt ∧ ¬ ldiAt253.raisesFault) := by
  refine ⟨⟨_, rfl, rfl, by decide, by decide⟩, ⟨.inl (by decide), .inr (.inl (by decide)),
    .inr (.inr ⟨.mod 8 1, ⟨rfl, by decide, by decide⟩, .inl (by decide)⟩),
    .inr (.inr ⟨.mod 0 1, ⟨rfl, by decide, by decide⟩, .inr ⟨1, by decide, by decide⟩⟩),
    .inr (.inr ⟨.push 1, ⟨rfl, by decide, by decide⟩,
      .inr (by decide : (stateWith 1 (withSp 0 0 0) 0 [0x45, 0x01]).sp = 0)⟩)⟩, ⟨_, rfl, fun h => ?_, ?_⟩⟩
  · exact absurd (h.2.2.symm.trans witness_executes.2.2) (by decide)
  · rintro (h | h | ⟨i, hi, h⟩)
    · exact absurd h (by decide)
    · exact absurd h (by decide)
    · have hd := hi.2.2.symm.trans witness_executes.2.2
      injection hd with hd
      subst hd
      exact h.elim (fun h => absurd h (by decide)) id

/-- The step from reset with nothing loaded: the byte 0x00 faults. -/
theorem witness_faulting_step : ∃ t r, step State.reset = .next t ∧ t.st = .faulted r ∧ r.cause = .unknownOpcode :=
  ⟨_, _, rfl, rfl, rfl⟩

theorem witness_FaultingStepCommitsNothing : ∃ t r, step State.reset = .next t ∧ t.st = .faulted r := ⟨_, _, rfl, rfl⟩

theorem witness_FaultsComeInStageOrder :
    253 < (stateWith 254 (two 0 0) 0 []).pc.toNat ∧
    State.reset.cfg.kindOf? State.reset.bytesAtPc.b0 = none ∧
    (let s := stateWith 253 (two 0 0) 0 [0xA4, 0x08, 0x09]
     s.cfg.kindOf? s.bytesAtPc.b0 = some .mod ∧ Kind.mod.usesRa = true ∧ 7 < s.bytesAtPc.b1.toNat) ∧
    (let s := stateWith 0 (two 0 0) 0 [0xA4, 0x07, 0x08]
     s.cfg.kindOf? s.bytesAtPc.b0 = some .mod ∧ s.bytesAtPc.b1.toNat ≤ 7 ∧ Kind.mod.usesRb = true ∧ 7 < s.bytesAtPc.b2.toNat) ∧
    (let s := stateWith 0 (two 5 0) 0 [0xA4, 0x07, 0x01]
     s.cfg.kindOf? s.bytesAtPc.b0 = some .mod ∧ s.bytesAtPc.b1.toNat ≤ 7 ∧ s.bytesAtPc.b2.toNat ≤ 7 ∧
     (next? (step s)).map (fun t => t.st) = some (.faulted ⟨.divisionByZero, 1⟩)) := by decide

theorem witness_UnsupportedOperationIsNeverRaised : ∃ t r, step State.reset = .next t ∧ t.st = .faulted r := ⟨_, _, rfl, rfl⟩

theorem witness_RegisterIndexAboveSevenFaults :
    (Instr.jeq 8).registersOk = false ∧ (Instr.jeq 7).registersOk = true ∧ (Instr.pop 7).registersOk = true ∧
    (let s := stateWith 0 (withSp 0 0 255) 0 []
     s.st = .running ∧ (next? (exec (.pop 0) s)).map (fun t => t.st) = some (.faulted ⟨.outOfRange .stack, 255⟩)) := by decide

theorem witness_InvariantAtLaunch : ∃ t, launch Config.default [0x82, 0x00, 0x08] = .next t := ⟨_, rfl⟩

theorem witness_EveryStepKeepsTheInvariant : State.reset.Inv ∧ ∃ t, step State.reset = .next t :=
  ⟨⟨rfl, by decide, .inl rfl, fun r h => by cases h⟩, _, rfl⟩

theorem witness_FlagsAreWrittenByCmpAndReadByJumps :
    (∃ t, step (stateWith 0 (two 3 5) 0 [0xA7, 0x00, 0x01]) = .next t ∧ t.fl ≠ 0) ∧
    (∃ t, step (stateWith 20 (withSp 0 0 244) 1 [0x55, 0x03]) = .next t) ∧
    ((0x05 : Byte).getLsbD 0 = (stateWith 20 (withSp 0 0 244) 1 [0x55, 0x03]).fl.getLsbD 0) ∧
    ((∃ t, step ldiAt253 = .next t) ∧ ∀ ra, ¬ ldiAt253.executes (.jeq ra) ∧ ¬ ldiAt253.executes (.jne ra)) := by
  refine ⟨⟨_, rfl, by decide⟩, ⟨_, rfl⟩, by decide, ⟨_, rfl⟩, fun ra => ⟨fun h => ?_, fun h => ?_⟩⟩
  · exact absurd (h.2.2.symm.trans witness_executes.2.2) (by simp)
  · exact absurd (h.2.2.symm.trans witness_executes.2.2) (by simp)

theorem witness_MemoryChangesOnlyBelowSp :
    ∃ t, step (stateWith 0 (withSp 10 0 1) 0 [0x45, 0x01]) = .next t ∧
      t.mem.read 0 ≠ (stateWith 0 (withSp 10 0 1) 0 [0x45, 0x01]).mem.read 0 := ⟨_, rfl, by decide⟩

theorem witness_RegistersChangeOnlyAsNamed : ∃ t, step ldiAt253 = .next t ∧ t.reg 1 ≠ ldiAt253.reg 1 := ⟨_, rfl, by decide⟩

theorem witness_OutputGrowsOnlyByPrn : ∃ t, step (stateWith 0 (two 72 0) 0 [0x47, 0x00]) = .next t ∧ t.out = [72] :=
  ⟨_, rfl, by decide⟩

theorem witness_RunsOnlyAppendToTheOutput :
    ∃ t, Host.Core.run Sys2Proof.core 1 (stateWith 0 (two 72 0) 0 [0x47, 0x00]) = .next t := ⟨_, rfl⟩

/-- PC after an instruction: a state for each clause, PC 253 and a target of 255 among them, none of them faulting. -/
theorem witness_PcAfterEachInstruction :
    look (stateWith 253 (two 0 0) 0 [0x01]) (fun t => (t.st, t.pc)) = some (.halted, 253) ∧
    look { stateWith 253 (withSp 0 0 0) 0 [] with mem := [(0, 255), (253, 0x11)] } (fun t => (t.st, t.pc)) = some (.running, 255) ∧
    look (stateWith 253 (two 255 0) 0 [0x50, 0x00]) (fun t => (t.st, t.pc)) = some (.running, 255) ∧
    look (stateWith 253 (two 255 0) 0 [0x54, 0x00]) (fun t => (t.st, t.pc)) = some (.running, 255) ∧
    look (stateWith 253 (two 0 0) 0 [0x55, 0x00]) (fun t => (t.st, t.pc)) = some (.running, 255) ∧
    look (stateWith 253 (two 0 0) 1 [0x56, 0x00]) (fun t => (t.st, t.pc)) = some (.running, 255) ∧
    look (stateWith 253 (two 0 0) 0 [0x47, 0x00]) (fun t => (t.st, t.pc)) = some (.running, 255) ∧
    look ldiAt253 (fun t => (t.st, t.pc)) = some (.running, 256) := by decide

theorem witness_PcPassesMemoryOnlyFrom253 :
    ldiAt253.pc.toNat ≤ 255 ∧ ∃ t, step ldiAt253 = .next t ∧ 255 < t.pc.toNat := ⟨by decide, _, rfl, by decide⟩

theorem witness_MemoryAccessIsBoundChecked : 255 ≤ 255 ∧ 255 < 256 ∧ 256 < 512 ∧ ldiAt253.mem.wf = true := by decide

theorem witness_EqualMemoriesAreEqualData :
    Memory.wf (Memory.write [(3, 1)] 5 2) = true ∧ Memory.wf [(3, 1), (5, 2)] = true ∧
    ∀ a, (Memory.write [(3, 1)] 5 2).read a = Memory.read [(3, 1), (5, 2)] a := ⟨by decide, by decide, fun _ => rfl⟩

theorem witness_LaunchedMemoryIsTheImage :
    ∃ t, launch Config.default [0x01, 0x02] = .next t ∧ 1 < [(0x01 : Byte), 0x02].length ∧ [(0x01 : Byte), 0x02].length ≤ 2 :=
  ⟨_, rfl, by decide, by decide⟩

theorem witness_ResetGivesTheInitialState :
    (List.replicate 256 (0 : Byte)).length ≤ 256 ∧ 256 < (List.replicate 257 (0 : Byte)).length ∧
    ({ State.reset with st := .halted } : State).cfg = Config.default ∧
    0 < [(0x01 : Byte)].length ∧ [(0x01 : Byte)].length ≤ 1 := by
  refine ⟨?_, ?_, rfl, by decide, by decide⟩
  · rw [List.length_replicate]
  · rw [List.length_replicate]; decide

theorem witness_StatusTellsEveryEndingApart : RunState.halted.mode ≠ 2 ∧ RunState.running.mode ≠ 2 := by decide

theorem witness_ModGivesTheRemainderOrFaults :
    (stateWith 0 (two 7 3) 0 []).reg 1 ≠ 0 ∧ (stateWith 0 (two 7 0) 0 []).reg 1 = 0 := by decide

theorem witness_ShiftsUseTheWholeAmount : 8 ≤ ((stateWith 0 (two 1 8) 0 []).reg 1).toNat := by decide

theorem witness_CmpSetsExactlyOneFlag : 3 ≤ 3 := by decide

theorem witness_PushStoresBelowSp :
    (stateWith 0 (withSp 0 0 1) 0 []).sp ≠ 0 ∧ (stateWith 0 (withSp 0 0 0) 0 []).sp = 0 := by decide

theorem witness_PopLoadsFromSp :
    ((6 : Fin 8) ≠ 7 ∧ (stateWith 0 (withSp 0 0 254) 0 []).sp ≠ 255) ∧
    (let s := { stateWith 0 (withSp 0 0 255) 0 [] with mem := [(255, 254)] }
     s.mem.read s.sp.toNat ≠ 255) ∧
    (let s := { stateWith 0 (withSp 0 0 243) 0 [] with mem := [(243, 255)] }
     (if (7 : Fin 8) = 7 then s.mem.read s.sp.toNat else s.sp) = 255) ∧
    (let s := stateWith 0 (withSp 0 0 255) 0 []
     (if (6 : Fin 8) = 7 then s.mem.read s.sp.toNat else s.sp) = 255) := by decide

theorem witness_CallStoresTheReturnAddress :
    (stateWith 253 (withSp 0 0 1) 0 []).sp ≠ 0 ∧ (stateWith 253 (withSp 0 0 1) 0 []).pc.toNat ≤ 253 ∧
    (stateWith 253 (withSp 0 0 0) 0 []).sp = 0 := by decide

theorem witness_RetLoadsPcFromSp :
    (stateWith 0 (withSp 0 0 254) 0 []).sp ≠ 255 ∧ (stateWith 0 (withSp 0 0 255) 0 []).sp = 255 := by decide

theorem witness_PopAfterPushGivesTheRegister :
    (6 : Fin 8) ≠ 7 ∧ (stateWith 0 (withSp 1 2 1) 0 []).sp ≠ 0 ∧ (stateWith 0 (withSp 1 2 1) 0 []).mem.wf = true := by decide

theorem witness_RetAfterCallResumes :
    ∃ t, exec (.call (regByte 2)) (stateWith 253 (withSp 0 20 1) 0 []) = .next t ∧
      (stateWith 253 (withSp 0 20 1) 0 []).sp ≠ 0 ∧ (stateWith 253 (withSp 0 20 1) 0 []).pc.toNat ≤ 253 ∧
      (stateWith 253 (withSp 0 20 1) 0 []).mem.wf = true ∧ t.sp = t.sp ∧ t.mem.read t.sp.toNat = t.mem.read t.sp.toNat :=
  ⟨_, rfl, by decide, by decide, by decide, rfl, rfl⟩

/-- The store at 254, with SP 255, at the places b2 and b1; the store at 0, with SP 1, at b0; CALL at PC 253. -/
theorem witness_StoredBytesAreFetched :
    (let s := stateWith 253 (withSp 0 0 255) 0 []
     s.sp ≠ 0 ∧ s.mem.wf = true ∧ s.pc.toNat ≤ 253 ∧
     ((252 : PcWord).toNat ≤ s.sp.toNat - 1 ∧ s.sp.toNat - 1 ≤ (252 : PcWord).toNat + 2 ∧ (252 : PcWord).toNat + 2 ≤ 255) ∧
     (253 : PcWord).toNat ≤ s.sp.toNat - 1 ∧ s.sp.toNat - 1 ≤ (253 : PcWord).toNat + 2 ∧ (253 : PcWord).toNat + 2 ≤ 255) ∧
    (let s := stateWith 253 (withSp 0 0 1) 0 []
     s.sp ≠ 0 ∧ s.mem.wf = true ∧ s.pc.toNat ≤ 253 ∧
     (0 : PcWord).toNat ≤ s.sp.toNat - 1 ∧ s.sp.toNat - 1 ≤ (0 : PcWord).toNat + 2 ∧ (0 : PcWord).toNat + 2 ≤ 255) := by decide

theorem witness_LdiToRegisterSevenMovesTheStack :
    (6 : Fin 8) ≠ 7 ∧ (1 : Byte) ≠ 0 ∧ State.reset.mem.wf = true := by decide

theorem witness_RegisterWritersChangeOneRegister :
    (∃ t, exec (.not 6) State.reset = .next t) ∧ Instr.not 6 ∈ [Instr.ldi 6 0, .not 6] ∧ (6 : Byte) ≠ regByte 7 :=
  ⟨⟨_, rfl⟩, by decide, by decide⟩

theorem witness_CmpChangesOnlyFlags : ∃ t, exec (.cmp 0 7) State.reset = .next t ∧ t.fl = 4 := ⟨_, rfl, by decide⟩

theorem witness_StackStoresChangeOneByte :
    (∃ t, exec (.push 0) State.reset = .next t) ∧ (∃ u, spDec State.reset = .ok u ∧ u.sp.toNat = 243) ∧
    (∃ r, spDec (stateWith 0 (withSp 0 0 0) 0 []) = .error r) := ⟨⟨_, rfl⟩, ⟨_, rfl, by decide⟩, ⟨_, rfl⟩⟩

theorem witness_StackLoadsStoreNothing :
    (∃ t, exec (.pop 6) State.reset = .next t) ∧ (6 : Byte) ≠ regByte 5 ∧ (5 : Fin 8) ≠ 7 ∧ ∃ t, exec .ret State.reset = .next t :=
  ⟨⟨_, rfl⟩, by decide, by decide, ⟨_, rfl⟩⟩

theorem witness_JumpsChangeOnlyPc :
    (∃ t, exec (.jne 7) State.reset = .next t ∧ t.pc = 244) ∧ Instr.jne 7 ∈ [Instr.jmp 7, .jeq 7, .jne 7] :=
  ⟨⟨_, rfl, by decide⟩, by decide⟩

theorem witness_PrnAndHltChangeNoRegister :
    (∃ t, exec (.prn 7) State.reset = .next t ∧ t.out = [244]) ∧ ∃ t, exec .hlt State.reset = .next t := ⟨⟨_, rfl, by decide⟩, ⟨_, rfl⟩⟩

/-- A Running state, the three ways its step can go (HLT, a fault, PRN and LDI), and an ended state. -/
theorem witness_HostSeesOutThenTheFinalState :
    State.reset.st = .running ∧
    (∃ t, step (stateWith 253 (two 0 0) 0 [0x01]) = .next t ∧ t.hostView.final.isSome = true) ∧
    (∃ t, step State.reset = .next t ∧ t.hostView.final.isSome = true) ∧
    (∃ t, step (stateWith 0 (two 72 0) 0 [0x47, 0x00]) = .next t ∧ t.hostView = ⟨[72], none⟩) ∧
    (∃ t, step ldiAt253 = .next t ∧ t.hostView = ⟨[], none⟩) ∧
    ({ State.reset with st := .halted } : State).st ≠ .running :=
  ⟨rfl, ⟨_, rfl, by decide⟩, ⟨_, rfl, by decide⟩, ⟨_, rfl, by decide⟩, ⟨_, rfl, by decide⟩, by decide⟩

end Sys2Proof.Tests
end

/-! SUPPORT. Proofs for the family of 10_state.md: what writes the flags register and what reads it (R27). -/

namespace Sys2Proof.Machine

/-! ## Who writes FL -/

/-- The effect of every instruction but CMP leaves FL as it is. -/
theorem Effect.fl_eq {i : Instr} {s t : State} (h : Effect i s t) (hi : ∀ ra rb, i ≠ .cmp ra rb) : t.fl = s.fl := by
  cases i with
  | cmp ra rb => exact absurd rfl (hi ra rb)
  | hlt => subst h; rfl
  | ret => obtain ⟨-, rfl⟩ := h; rfl
  | prn ra | jmp ra | ldi ra imm => obtain ⟨d, -, rfl⟩ := h; rfl
  | push ra | call ra => obtain ⟨d, -, -, rfl⟩ := h; rfl
  | pop ra => obtain ⟨d, u, -, rfl, -, rfl⟩ := h; rfl
  | jeq ra | jne ra => obtain ⟨d, -, rfl⟩ := h; split <;> rfl
  | not ra => obtain ⟨d, v, -, -, rfl⟩ := h; rfl
  | add ra rb | sub ra rb | mul ra rb | mod ra rb | and ra rb | or ra rb | xor ra rb | shl ra rb | shr ra rb =>
    obtain ⟨d, e, v, -, -, -, rfl⟩ := h; rfl

/-- An instruction that changes FL is CMP: a fault changes nothing but ST. -/
theorem eq_cmp_of_exec_fl_ne {i : Instr} {s t : State} (h : exec i s = .next t) (hfl : t.fl ≠ s.fl) :
    ∃ ra rb, i = .cmp ra rb := by
  cases exec_cases h with
  | badRegister b _ _ ht | ownFault r _ _ ht => subst ht; exact absurd rfl hfl
  | effect _ he =>
    by_contra hi
    exact hfl (he.fl_eq fun ra rb heq => hi ⟨ra, rb, heq⟩)

/-- A step that changes FL executes CMP. -/
theorem executes_cmp_of_step_fl_ne {s t : State} (h : step s = .next t) (hfl : t.fl ≠ s.fl) :
    ∃ ra rb, s.executes (.cmp ra rb) := by
  obtain ⟨-, hc⟩ := step_cases h
  cases hc with
  | fetchFault _ ht | illegal _ _ ht => subst ht; exact absurd rfl hfl
  | runs i hi he =>
    obtain ⟨ra, rb, rfl⟩ := eq_cmp_of_exec_fl_ne he hfl
    exact ⟨ra, rb, hi⟩

/-! ## Who reads FL

A simulation: `s` and `s.setFlags fl` go through every operation side by side. The relation says that both raise the
same fault, or answer states that differ at most in FL; it is kept by sequencing and by every operation but the test
of a conditional jump. -/

/-- Two results that agree on all but FL. -/
inductive ResultsAgree : Result State → Result State → Prop where
  | ok (t : State) (fl : Byte) : ResultsAgree (.ok t) (.ok (t.setFlags fl))
  | error (e : FaultRecord) : ResultsAgree (.error e) (.error e)

/-- Two outcomes that are next states and agree on all but FL. -/
def NextsAgree (o o' : Host.Outcome State Fault Refusal) : Prop :=
  ∃ t fl, o = .next t ∧ o' = .next (t.setFlags fl)

/-- After a stage that answers the same on both sides, as one that does not see FL does. -/
theorem ResultsAgree.bind_same {α : Type} (r : Result α) {f g : α → Result State}
    (h : ∀ a, ResultsAgree (f a) (g a)) : ResultsAgree (r >>= f) (r >>= g) := by
  cases r with
  | ok a => exact h a
  | error e => exact .error e

/-- After a stage that answers states agreeing on all but FL. -/
theorem ResultsAgree.bind {r r' : Result State} {f g : State → Result State} (h : ResultsAgree r r')
    (hf : ∀ t fl, ResultsAgree (f t) (g (t.setFlags fl))) : ResultsAgree (r >>= f) (r' >>= g) := by
  cases h with
  | ok t fl => exact hf t fl
  | error e => exact .error e

theorem ResultsAgree.commit {r r' : Result State} (h : ResultsAgree r r') (s : State) (fl : Byte) :
    NextsAgree (commit s r) (commit (s.setFlags fl) r') := by
  cases h with
  | ok t fl' => exact ⟨t, fl', rfl, rfl⟩
  | error e => exact ⟨s.takeFault e, fl, rfl, rfl⟩

section
variable (s : State) (fl : Byte)

theorem spDec_setFlags : ResultsAgree (spDec s) (spDec (s.setFlags fl)) := by
  unfold spDec
  rw [setFlags_sp]
  split
  · exact .error _
  · exact .ok _ fl

theorem spInc_setFlags : ResultsAgree (spInc s) (spInc (s.setFlags fl)) := by
  unfold spInc
  rw [setFlags_sp]
  split
  · exact .error _
  · exact .ok _ fl

theorem memWrite_setFlags (a : Nat) (v : Byte) : ResultsAgree (memWrite s a v) (memWrite (s.setFlags fl) a v) := by
  unfold memWrite
  split
  · exact .ok _ fl
  · exact .error _

theorem pushByte_setFlags (v : Byte) : ResultsAgree (pushByte v s) (pushByte v (s.setFlags fl)) :=
  (spDec_setFlags s fl).bind fun t fl' => memWrite_setFlags t fl' t.sp.toNat v

/-- The flags that CMP writes overwrite whatever FL held. -/
theorem aluWriteBack_setFlags (op : Kind) (d : Fin 8) (rb : Byte) (answer : AluAnswer) :
    ResultsAgree (aluWriteBack op d rb answer s) (aluWriteBack op d rb answer (s.setFlags fl)) := by
  cases answer with
  | value v => exact .ok _ fl
  | flags f => exact .ok _ f
  | fails cause => exact .error _

theorem aluBinary_setFlags (op : Kind) (ra rb : Byte) :
    ResultsAgree (aluBinary op ra rb s) (aluBinary op ra rb (s.setFlags fl)) :=
  .bind_same _ fun d => .bind_same _ fun e => aluWriteBack_setFlags s fl op d rb (alu op (s.reg d) (s.reg e))

theorem aluUnary_setFlags (op : Kind) (ra : Byte) :
    ResultsAgree (aluUnary op ra s) (aluUnary op ra (s.setFlags fl)) :=
  .bind_same _ fun d => aluWriteBack_setFlags s fl op d 0 (alu op (s.reg d) 0)

end

/-- NotEqual is the negation of Equal (10_state.md R27). -/
theorem testFlags_notEqual (fl : Byte) : testFlags fl .notEqual = !testFlags fl .equal := rfl

/-- Both conditions read bit E alone (10_state.md R27). -/
theorem testFlags_congr {fl fl' : Byte} (h : fl.getLsbD 0 = fl'.getLsbD 0) (cond : Condition) :
    testFlags fl cond = testFlags fl' cond := by
  cases cond with
  | equal => exact h
  | notEqual => rw [testFlags_notEqual, testFlags_notEqual]; exact congrArg (!·) h

/-- A conditional jump goes the same way under flags with the same bit E. -/
theorem jumpIf_setFlags {s : State} {fl : Byte} (h : fl.getLsbD 0 = s.fl.getLsbD 0) (cond : Condition) (k : Kind)
    (ra : Byte) : ResultsAgree (jumpIf cond k ra s) (jumpIf cond k ra (s.setFlags fl)) :=
  .bind_same _ fun d => by
    rw [setFlags_fl, testFlags_congr h]
    split
    · exact .ok _ fl
    · exact .ok _ fl

/-- Every instruction keeps the agreement of two states on all but FL; JEQ and JNE where bit E is the same. -/
theorem exec_setFlags (i : Instr) (s : State) (fl : Byte)
    (h : fl.getLsbD 0 = s.fl.getLsbD 0 ∨ ∀ ra, i ≠ .jeq ra ∧ i ≠ .jne ra) :
    NextsAgree (exec i s) (exec i (s.setFlags fl)) := by
  cases i with
  | hlt => exact (ResultsAgree.ok _ fl).commit s fl
  | ret =>
    exact (ResultsAgree.bind_same _ fun v => (spInc_setFlags s fl).bind fun t fl' => .ok (t.jump v) fl').commit s fl
  | push ra =>
    exact (ResultsAgree.bind_same _ fun d =>
      (pushByte_setFlags s fl (s.reg d)).bind fun t fl' => .ok (t.advance .push) fl').commit s fl
  | pop ra =>
    exact (ResultsAgree.bind_same _ fun d => .bind_same _ fun v =>
      (spInc_setFlags (s.setReg d v) fl).bind fun t fl' => .ok (t.advance .pop) fl').commit s fl
  | call ra =>
    exact (ResultsAgree.bind_same _ fun d =>
      (pushByte_setFlags s fl (returnAddress s)).bind fun t fl' => .ok (t.jump (s.reg d)) fl').commit s fl
  | prn ra | jmp ra | ldi ra imm => exact (ResultsAgree.bind_same _ fun d => .ok _ fl).commit s fl
  | jeq ra =>
    have hE := h.resolve_right fun hn => (hn ra).1 rfl
    exact (jumpIf_setFlags hE .equal .jeq ra).commit s fl
  | jne ra =>
    have hE := h.resolve_right fun hn => (hn ra).2 rfl
    exact (jumpIf_setFlags hE .notEqual .jne ra).commit s fl
  | not ra => exact (aluUnary_setFlags s fl .not ra).commit s fl
  | add ra rb | sub ra rb | mul ra rb | mod ra rb | cmp ra rb | and ra rb | or ra rb | xor ra rb | shl ra rb
  | shr ra rb => exact (aluBinary_setFlags s fl _ ra rb).commit s fl

/-- Every step keeps the agreement of two states on all but FL; one that executes JEQ or JNE where bit E is the same.
The fetch and the decoder do not see FL. -/
theorem step_setFlags {s t : State} {fl : Byte} (h : step s = .next t)
    (hE : fl.getLsbD 0 = s.fl.getLsbD 0 ∨ ∀ ra, ¬ s.executes (.jeq ra) ∧ ¬ s.executes (.jne ra)) :
    ∃ fl', step (s.setFlags fl) = .next (t.setFlags fl') := by
  obtain ⟨hr, hc⟩ := step_cases h
  cases hc with
  | fetchFault hp ht => subst ht; exact ⟨fl, step_of_fetchFault (s := s.setFlags fl) hr hp⟩
  | illegal hp hk ht => subst ht; exact ⟨fl, step_of_illegal (s := s.setFlags fl) hr hp hk⟩
  | runs i hi he =>
    have hi' : (s.setFlags fl).executes i := hi
    have hjump : fl.getLsbD 0 = s.fl.getLsbD 0 ∨ ∀ ra, i ≠ .jeq ra ∧ i ≠ .jne ra :=
      hE.imp_right fun hn ra => ⟨fun heq => (hn ra).1 (heq ▸ hi), fun heq => (hn ra).2 (heq ▸ hi)⟩
    obtain ⟨t', fl', ht, hu⟩ := exec_setFlags i s fl hjump
    have htt : t' = t := by rw [he] at ht; injection ht with ht; exact ht.symm
    exact ⟨fl', by rw [step_of_executes hi', hu, htt]⟩

/-- Settles O20: FL's writer from the inversion of `step`, its readers by the simulation of `s` and `s.setFlags fl`. -/
theorem flagsAreWrittenByCmpAndReadByJumps : Obligations.FlagsAreWrittenByCmpAndReadByJumps := by
  unfold Obligations.FlagsAreWrittenByCmpAndReadByJumps
  refine ⟨fun s t => executes_cmp_of_step_fl_ne, fun s t fl h hE => ?_, testFlags_notEqual⟩
  obtain ⟨fl', hu⟩ := step_setFlags h hE
  exact ⟨t.setFlags fl', hu, rfl⟩

end Sys2Proof.Machine

/-! SUPPORT. Proofs for the family of 20_memory.md: the bound check of an access (R38, R39) and memory at the start of a run (R46). -/

namespace Sys2Proof.Machine

/-! ## The bound check -/

/-- The write's counterpart of `memRead_of_le`. -/
theorem memWrite_of_le {s : State} {a : Nat} (v : Byte) (h : a ≤ 255) :
    memWrite s a v = .ok { s with mem := s.mem.write a v } :=
  if_pos h

/-- Settles O27: an access in range is the memory's own read or write, one out of range the record of the fault. -/
theorem memoryAccessIsBoundChecked : Obligations.MemoryAccessIsBoundChecked := by
  unfold Obligations.MemoryAccessIsBoundChecked
  refine ⟨fun s a => memRead_of_le, fun s a h => ?readFault, fun s a v h hm => ?write, fun s a v h => ?writeFault⟩
  case readFault => exact ⟨_, memRead_of_gt h, rfl, toNat_info_of_lt⟩
  case write =>
    exact ⟨s.mem.write a v, memWrite_of_le v h, Memory.wf_write hm h v, Memory.read_write_same hm a v,
      fun b hb => Memory.read_write_ne v hb s.mem⟩
  case writeFault => exact ⟨_, memWrite_of_gt h, rfl, toNat_info_of_lt⟩

/-! ## Memory at the start of a run -/

/-- A launch that starts a run had an image that fits, and starts it in the state of R122. -/
theorem launch_eq_next_iff {c : Config} {image : List Byte} {t : State} :
    launch c image = .next t ↔ image.length ≤ 256 ∧ State.boot c image = t := by
  unfold launch
  split <;> simp [*]

/-- Where the image has a byte, booted memory holds it (70_reset_and_hazards.md R125). -/
theorem read_boot_of_lt (c : Config) {image : List Byte} (hl : image.length ≤ 256) {a : Nat} (h : a < image.length) :
    (State.boot c image).mem.read a = image[a] := by
  obtain ⟨inside, -⟩ := Memory.read_load (bs := image) (a := 0) (m := []) rfl (by omega)
  simpa [State.boot] using inside a h

/-- Beyond the image booted memory is 0 (70_reset_and_hazards.md R124). -/
theorem read_boot_of_ge (c : Config) {image : List Byte} (hl : image.length ≤ 256) {a : Nat} (h : image.length ≤ a) :
    (State.boot c image).mem.read a = 0 := by
  obtain ⟨-, above⟩ := Memory.read_load (bs := image) (a := 0) (m := []) rfl (by omega)
  exact above a (by omega)

/-- Settles O29: a launched state is the booted one, whose memory the loader filled from address 0. -/
theorem launchedMemoryIsTheImage : Obligations.LaunchedMemoryIsTheImage := by
  unfold Obligations.LaunchedMemoryIsTheImage
  refine ⟨Memory.read_nil, fun c image t h => ?_⟩
  obtain ⟨hl, rfl⟩ := launch_eq_next_iff.1 h
  exact ⟨fun a => read_boot_of_lt c hl, fun a => read_boot_of_ge c hl⟩

end Sys2Proof.Machine

/-! SUPPORT. Proofs for the family of 30_encoding.md: what the fetch delivers and what of it the decoder uses (R54). -/

namespace Sys2Proof.Machine

/-- The fetch's three bytes under the name the statements use. -/
theorem fetch_eq_bytesAtPc {s : State} (h : s.pc.toNat + 2 ≤ 255) : fetch s = .ok s.bytesAtPc :=
  fetch_of_le h

/-- Decoding depends on the opcode byte and on the operand bytes that the kind it finds has. -/
theorem decode_congr {c : Config} {f g : Fetched} (h0 : f.b0 = g.b0)
    (h1 : ∀ k, c.kindOf? f.b0 = some k → 2 ≤ k.length → f.b1 = g.b1)
    (h2 : ∀ k, c.kindOf? f.b0 = some k → 3 ≤ k.length → f.b2 = g.b2) : decode c f = decode c g := by
  cases hf : c.kindOf? f.b0 with
  | none =>
    have hg : c.kindOf? g.b0 = none := h0 ▸ hf
    rw [decode_of_kindOf?_none hf, decode_of_kindOf?_none hg, h0]
  | some k =>
    have hg : c.kindOf? g.b0 = some k := h0 ▸ hf
    rw [decode_of_kindOf? hf, decode_of_kindOf? hg, k.instr_congr (h1 k hf) (h2 k hf)]

/-- A decoded instruction's operands are the fetched operand bytes, as many as its length leaves room for. -/
theorem operands_of_decode {c : Config} {f : Fetched} {i : Instr} (h : decode c f = .instr i) :
    i.operands = [f.b1, f.b2].take (i.kind.length - 1) := by
  obtain ⟨k, -, rfl⟩ := decode_instr_inv h
  rw [Kind.instr_kind, Kind.instr_operands]

/-- Settles O6: the fetch by its two cases, the decoder by the kind that the opcode byte finds. -/
theorem fetchAlwaysReadsThreeBytes : Obligations.FetchAlwaysReadsThreeBytes := by
  unfold Obligations.FetchAlwaysReadsThreeBytes
  exact ⟨fun s => fetch_eq_bytesAtPc, fun s h => ⟨_, fetch_of_gt h, rfl⟩, fun c f g => decode_congr,
    fun c f i => operands_of_decode⟩

end Sys2Proof.Machine

/-! SUPPORT. Proofs for the family of 40_cycle.md: when a step happens (R69), the illegal opcode (R71) and the operand check (R72). -/

namespace Sys2Proof.Machine

/-! ## When a step happens -/

/-- In Running every step completes, whichever of the three ways it goes. -/
theorem step_total {s : State} (hr : s.st = .running) : ∃ t, step s = .next t := by
  obtain hp | ⟨hp, hk⟩ | ⟨i, hi⟩ := running_cases hr
  · exact ⟨_, step_of_fetchFault hr hp⟩
  · exact ⟨_, step_of_illegal hr hp hk⟩
  · rw [step_of_executes hi]
    exact exec_total i s

/-- Settles O9: in Running by the ways a step goes, outside it by the inversion of `step`. -/
theorem stepsExactlyInRunning : Obligations.StepsExactlyInRunning := by
  unfold Obligations.StepsExactlyInRunning
  refine ⟨rfl, rfl, fun s => ⟨step_total, fun hn t h => ?_⟩⟩
  obtain ⟨hr, -⟩ := step_cases h
  exact hn hr

/-! ## The illegal opcode -/

/-- Settles O10: the record holds the byte whole, since 9 bits hold any byte, and taking a fault keeps PC. -/
theorem illegalOpcodeFaultsAtItsAddress : Obligations.IllegalOpcodeFaultsAtItsAddress := by
  unfold Obligations.IllegalOpcodeFaultsAtItsAddress
  intro s hr hp hk
  have hinfo := toNat_info_of_lt (n := (s.mem.read s.pc.toNat).toNat) (by omega)
  exact ⟨_, _, step_of_illegal hr hp hk, takeFault_st .., rfl, hinfo, takeFault_pc ..⟩

/-! ## The operand check -/

/-- An instruction with a bad register index faults on the first one, whatever else it would do. -/
theorem exec_of_badRegister {i : Instr} {b : Byte} (h : badRegister? i = some b) (s : State) :
    exec i s = .next (s.takeFault ⟨.outOfRange .register, BitVec.ofNat 9 b.toNat⟩) := by
  obtain ⟨t, ht⟩ := exec_total i s
  rw [ht]
  cases exec_cases ht with
  | badRegister b' hb' _ hf => rw [hf, Option.some.inj (hb'.symm.trans h)]
  | ownFault _ hok | effect hok => rw [hok] at h; cases h

/-- An instruction's effect on ST: HLT sets Halted, every other instruction keeps it. -/
theorem Effect.st_eq {i : Instr} {s t : State} (h : Effect i s t) : t.st = if i = .hlt then .halted else s.st := by
  cases i with
  | hlt => subst h; rfl
  | ret => obtain ⟨-, rfl⟩ := h; rfl
  | prn ra | jmp ra | ldi ra imm => obtain ⟨d, -, rfl⟩ := h; rfl
  | push ra | call ra => obtain ⟨d, -, -, rfl⟩ := h; rfl
  | pop ra => obtain ⟨d, u, -, rfl, -, rfl⟩ := h; rfl
  | jeq ra | jne ra => obtain ⟨d, -, rfl⟩ := h; split <;> rfl
  | not ra => obtain ⟨d, v, -, -, rfl⟩ := h; rfl
  | cmp ra rb => obtain ⟨d, e, -, -, rfl⟩ := h; rfl
  | add ra rb | sub ra rb | mul ra rb | mod ra rb | and ra rb | or ra rb | xor ra rb | shl ra rb | shr ra rb =>
    obtain ⟨d, e, v, -, -, -, rfl⟩ := h; rfl

/-- An instruction that has its effect in Running does not end in Faulted. -/
theorem Effect.st_ne_faulted {i : Instr} {s t : State} (h : Effect i s t) (hr : s.st = .running) (r : FaultRecord) :
    t.st ≠ .faulted r := by
  rw [h.st_eq, hr]
  split <;> exact RunState.noConfusion

/-- A fault of an instruction whose register indices are all good is the instruction's own. -/
theorem ownFault_of_exec_faulted {i : Instr} {s t : State} {r : FaultRecord} (hok : badRegister? i = none)
    (h : exec i s = .next t) (hr : s.st = .running) (hf : t.st = .faulted r) : OwnFault i s r := by
  cases exec_cases h with
  | badRegister b hb => rw [hok] at hb; cases hb
  | ownFault r' _ ho ht =>
    rw [ht, takeFault_st] at hf
    injection hf with hf
    exact hf ▸ ho
  | effect _ he => exact absurd hf (he.st_ne_faulted hr r)

/-- The causes of the faults after the operand check (60_exceptions.md R108). -/
theorem OwnFault.cause_eq {i : Instr} {s : State} {r : FaultRecord} (h : OwnFault i s r) :
    r.cause = .divisionByZero ∨ r.cause = .outOfRange .stack := by
  obtain ⟨d, e, -, -, rfl⟩ | ⟨-, -, rfl⟩ | ⟨-, -, rfl⟩ := h
  · exact .inl rfl
  · exact .inr rfl
  · exact .inr rfl

/-- Settles O16: a bad index is found before anything else is done; with good indices only own faults are left, and
none of them is a register's. -/
theorem registerIndexAboveSevenFaults : Obligations.RegisterIndexAboveSevenFaults := by
  unfold Obligations.RegisterIndexAboveSevenFaults
  refine fun i s => ⟨fun hbad => ?faults, fun hok t r h hr hf => ?neverRaised⟩
  case faults =>
    have hne : badRegister? i ≠ none := by rw [Ne, badRegister?_eq_none, hbad]; decide
    obtain ⟨b, hb⟩ := Option.ne_none_iff_exists'.1 hne
    exact ⟨_, rfl, exec_of_badRegister hb s⟩
  case neverRaised =>
    have hown := ownFault_of_exec_faulted ((badRegister?_eq_none i).2 hok) h hr hf
    obtain hc | hc := hown.cause_eq <;> rw [hc] <;> decide

end Sys2Proof.Machine

/-! SUPPORT. Proofs for the family of 70_reset_and_hazards.md: what the host sees of a state and of a step (R134). -/

namespace Sys2Proof.Machine

/-! ## Faulting steps and steps that go on -/

/-- The engine executes at most one instruction in a step. -/
theorem executes_unique {s : State} {i j : Instr} (hi : s.executes i) (hj : s.executes j) : i = j := by
  obtain ⟨-, -, hi⟩ := hi
  obtain ⟨-, -, hj⟩ := hj
  exact Decoded.instr.inj (hi.symm.trans hj)

/-- An executed instruction's opcode byte is one the decoder knows (40_cycle.md R71). -/
theorem kindOf?_ne_none_of_executes {s : State} {i : Instr} (h : s.executes i) :
    s.cfg.kindOf? s.bytesAtPc.b0 ≠ none := by
  obtain ⟨-, -, hd⟩ := h
  intro hk
  rw [decode_of_kindOf?_none hk] at hd
  cases hd

/-- A step whose instruction has its effect is none of those that raise a fault. -/
theorem not_raisesFault_of_effect {i : Instr} {s t : State} (hi : s.executes i) (hok : badRegister? i = none)
    (he : Effect i s t) : ¬ s.raisesFault := by
  rintro (hp | hk | ⟨j, hj, hbad | hown⟩)
  · obtain ⟨-, hp', -⟩ := hi
    omega
  · exact kindOf?_ne_none_of_executes hi hk
  · rw [executes_unique hj hi, (badRegister?_eq_none i).1 hok] at hbad
    cases hbad
  · rw [executes_unique hj hi] at hown
    exact not_raisesOwnFault_of_effect he hown

/-- The inversion of `step` by `State.raisesFault`: a step that raises a fault takes it, any other has the effect of
the instruction at PC. -/
theorem step_takesFault_or_effect {s t : State} (h : step s = .next t) :
    (s.raisesFault ∧ ∃ r, t = s.takeFault r) ∨ (¬ s.raisesFault ∧ ∃ i, s.executes i ∧ Effect i s t) := by
  obtain ⟨-, hc⟩ := step_cases h
  cases hc with
  | fetchFault hp ht => exact .inl ⟨.inl hp, _, ht⟩
  | illegal _ hk ht => exact .inl ⟨.inr (.inl hk), _, ht⟩
  | runs i hi hx =>
    cases exec_cases hx with
    | badRegister b hb _ ht =>
      have hbad : i.registersOk = false := by
        rw [← Bool.not_eq_true, ← badRegister?_eq_none, hb]
        exact Option.some_ne_none b
      exact .inl ⟨.inr (.inr ⟨i, hi, .inl hbad⟩), _, ht⟩
    | ownFault r _ ho ht => exact .inl ⟨.inr (.inr ⟨i, hi, .inr (raisesOwnFault_of_ownFault ho)⟩), r, ht⟩
    | effect hok he => exact .inr ⟨not_raisesFault_of_effect hi hok he, i, hi, he⟩

/-- HLT's step sets Halted and nothing else (41_data_io.md R83). -/
theorem eq_halted_of_executes_hlt {s t : State} (hi : s.executes .hlt) (h : step s = .next t) :
    t = { s with st := .halted } := by
  rw [step_of_executes hi] at h
  injection h with h
  exact h.symm

/-- An instruction's effect on OUT: PRN appends its register's byte, every other instruction keeps it. -/
theorem Effect.out_eq {i : Instr} {s t : State} (h : Effect i s t) :
    t.out = s.out ∨ ∃ d, i = .prn (regByte d) ∧ t.out = s.out ++ [s.reg d] := by
  cases i with
  | prn ra => obtain ⟨d, rfl, rfl⟩ := h; exact .inr ⟨d, rfl, rfl⟩
  | hlt => subst h; exact .inl rfl
  | ret => obtain ⟨-, rfl⟩ := h; exact .inl rfl
  | jmp ra | ldi ra imm => obtain ⟨d, -, rfl⟩ := h; exact .inl rfl
  | push ra | call ra => obtain ⟨d, -, -, rfl⟩ := h; exact .inl rfl
  | pop ra => obtain ⟨d, u, -, rfl, -, rfl⟩ := h; exact .inl rfl
  | jeq ra | jne ra => obtain ⟨d, -, rfl⟩ := h; left; split <;> rfl
  | not ra => obtain ⟨d, v, -, -, rfl⟩ := h; exact .inl rfl
  | cmp ra rb => obtain ⟨d, e, -, -, rfl⟩ := h; exact .inl rfl
  | add ra rb | sub ra rb | mul ra rb | mod ra rb | and ra rb | or ra rb | xor ra rb | shl ra rb | shr ra rb =>
    obtain ⟨d, e, v, -, -, -, rfl⟩ := h; exact .inl rfl

/-! ## The host's view -/

/-- A taken fault shows the host the final reading of the state before the step, under the fault's ST. -/
theorem hostView_takeFault (s : State) (r : FaultRecord) :
    (s.takeFault r).hostView = ⟨s.out, some ⟨.faulted r, s.pc, s.regs, s.fl, s.mem⟩⟩ := rfl

/-- While Running the host tells two states apart by OUT alone. -/
theorem hostView_eq_iff_of_running {s t : State} (hs : s.st = .running) (ht : t.st = .running) :
    s.hostView = t.hostView ↔ s.out = t.out := by
  simp [hostView_of_running, hs, ht]

/-- What the host sees after an effect that goes on: OUT as before, or PRN's byte more. -/
theorem Effect.hostView_eq {i : Instr} {s t : State} (h : Effect i s t) (hr : s.st = .running) (hi : i ≠ .hlt) :
    t.hostView = ⟨s.out, none⟩ ∨ ∃ d, i = .prn (regByte d) ∧ t.hostView = ⟨s.out ++ [s.reg d], none⟩ := by
  have ht : t.st = .running := by rw [h.st_eq, if_neg hi, hr]
  rw [hostView_of_running ht]
  obtain ho | ⟨d, hd, ho⟩ := h.out_eq
  · exact .inl (by rw [ho])
  · exact .inr ⟨d, hd, by rw [ho]⟩

/-- OUT, the final reading and the parameters are the whole state. -/
theorem eq_of_finalReading_eq {s t : State} (ho : s.out = t.out) (hf : s.finalReading = t.finalReading)
    (hc : s.cfg = t.cfg) : s = t := by
  obtain ⟨regs, pc, fl, mem, st, out, cfg⟩ := s
  injection hf with hst hpc hregs hfl hmem
  cases ho; cases hst; cases hpc; cases hregs; cases hfl; cases hmem; cases hc
  rfl

/-- An ended state is known from what the host sees of it and the parameters. -/
theorem eq_of_hostView_eq_of_ended {s t : State} (hs : s.st ≠ .running) (hc : s.cfg = t.cfg)
    (h : s.hostView = t.hostView) : s = t := by
  rw [hostView_of_ended hs] at h
  by_cases ht : t.st = .running
  · rw [hostView_of_running ht] at h
    injection h with _ hf
    cases hf
  · rw [hostView_of_ended ht] at h
    injection h with ho hf
    exact eq_of_finalReading_eq ho (Option.some.inj hf) hc

/-- Settles O59: the views of Running and of ended states, and between them the inversion of `step` by
`State.raisesFault`. -/
theorem hostSeesOutThenTheFinalState : Obligations.HostSeesOutThenTheFinalState := by
  unfold Obligations.HostSeesOutThenTheFinalState
  refine ⟨fun s t => hostView_eq_iff_of_running, fun s t hr h => ⟨hostView_of_running hr, fun hi => ?halts,
    fun hf => ?faults, fun hn hnf => ?goesOn⟩, fun s t => eq_of_hostView_eq_of_ended⟩
  case halts => rw [eq_halted_of_executes_hlt hi h]; rfl
  case faults =>
    obtain ⟨-, r, rfl⟩ | ⟨hnf, -⟩ := step_takesFault_or_effect h
    · exact ⟨r, hostView_takeFault s r⟩
    · exact absurd hf hnf
  case goesOn =>
    obtain ⟨hf, -⟩ | ⟨-, i, hi, he⟩ := step_takesFault_or_effect h
    · exact absurd hf hnf
    · have hne : i ≠ .hlt := fun heq => hn (heq ▸ hi)
      exact (he.hostView_eq hr hne).imp_right fun ⟨d, hd, hv⟩ => ⟨d, hd ▸ hi, hv⟩

end Sys2Proof.Machine

/-! SUPPORT. Proofs for the encoding: decoding an encoded instruction and encoding a decoded one (30_encoding.md R52, R57), the illegal bytes (R62) and the optional row SUB (R61, R68). -/

namespace Sys2Proof

/-! ## Decode and encode agree -/

/-- The operand bytes an instruction lays out, with whatever follows them, are read back as that instruction. -/
theorem Instr.instr_of_operands_append (i : Instr) (rest : List Byte) :
    i.kind.instr ((i.operands ++ rest).getD 0 0) ((i.operands ++ rest).getD 1 0) = i := by cases i <;> rfl

/-- Settles O2: the opcode byte finds the kind again, since no other row has it, and the operand bytes follow it. -/
theorem decodeOfEncodeIsTheInstruction : Obligations.DecodeOfEncodeIsTheInstruction := by
  unfold Obligations.DecodeOfEncodeIsTheInstruction
  intro c i rest hc hd
  have hk : c.kindOf? (Fetched.ofBytes (encode c i ++ rest)).b0 = some i.kind := Config.kindOf?_opcode hc hd
  calc decode c (Fetched.ofBytes (encode c i ++ rest))
      = .instr (i.kind.instr ((i.operands ++ rest).getD 0 0) ((i.operands ++ rest).getD 1 0)) := decode_of_kindOf? hk
    _ = .instr i := by rw [i.instr_of_operands_append]

/-- The kind that the decoder finds has the byte looked up. -/
theorem Config.opcode_of_kindOf? {c : Config} {b : Byte} {k : Kind} (h : c.kindOf? b = some k) :
    c.opcodeMap.opcode k = b :=
  OpcodeMap.opcode_of_kindOf? (Config.kindOf?_eq_some.1 h).1

/-- Every instruction has its opcode byte (30_encoding.md R52). -/
theorem Kind.length_pos (k : Kind) : 0 < k.length := by cases k <;> decide

/-- Settles O3: the opcode byte is the kind's, and the operand bytes are the fetched ones that the length leaves room for. -/
theorem encodeOfDecodeIsTheBytes : Obligations.EncodeOfDecodeIsTheBytes := by
  unfold Obligations.EncodeOfDecodeIsTheBytes
  intro c f i h
  have hops := Machine.operands_of_decode h
  obtain ⟨k, hk, rfl⟩ := decode_instr_inv h
  rw [Kind.instr_kind] at hops ⊢
  rw [encode, hops, Kind.instr_kind, Config.opcode_of_kindOf? hk, ← List.take_succ_cons,
    Nat.sub_add_cancel k.length_pos]

/-! ## Illegal bytes -/

/-- The decoder calls a byte illegal exactly where it finds no kind for it (30_encoding.md R62). -/
theorem decode_eq_illegal_iff {c : Config} {f : Fetched} : decode c f = .illegal f.b0 ↔ c.kindOf? f.b0 = none := by
  refine ⟨fun h => ?_, decode_of_kindOf?_none⟩
  cases hk : c.kindOf? f.b0 with
  | none => rfl
  | some k => rw [decode_of_kindOf? hk] at h; cases h

/-- The decoder finds no kind exactly for the bytes that no row it knows has. -/
theorem Config.kindOf?_eq_none_iff {c : Config} (hc : c.wf = true) {b : Byte} :
    c.kindOf? b = none ↔ ∀ k, c.decodes k = true → c.opcodeMap.opcode k ≠ b := by
  constructor
  · rintro h k hd rfl
    rw [Config.kindOf?_opcode hc hd] at h
    cases h
  · intro h
    cases hk : c.kindOf? b with
    | none => rfl
    | some k => exact absurd (Config.opcode_of_kindOf? hk) (h k (Config.kindOf?_eq_some.1 hk).2)

/-- Counting by rows: `m` rows of `n` numbers each. -/
theorem countP_range_mul (p : Nat → Bool) (m n : Nat) :
    (List.range (m * n)).countP p =
      ((List.range m).map fun row => (List.range n).countP fun col => p (row * n + col)).sum := by
  induction m with
  | zero => simp
  | succ m ih => simp [Nat.succ_mul, List.range_add, List.range_succ, List.countP_map, ih, Function.comp_def]

/-- How many bytes the decoder finds no kind for, counted by the high and the low half of the byte. -/
theorem Config.countP_illegal (c : Config) :
    (List.range 256).countP (fun n => (c.kindOf? (BitVec.ofNat 8 n)).isNone) =
      ((List.range 16).map fun high => (List.range 16).countP fun low =>
        (c.kindOf? (BitVec.ofNat 8 (high * 16 + low))).isNone).sum :=
  countP_range_mul _ 16 16

/-- Settles O4: for every map by the rows the decoder knows; the two counts look all 256 bytes up. -/
theorem illegalOpcodesAreTheOtherBytes : Obligations.IllegalOpcodesAreTheOtherBytes := by
  unfold Obligations.IllegalOpcodesAreTheOtherBytes
  exact ⟨fun c f hc => decode_eq_illegal_iff.trans (Config.kindOf?_eq_none_iff hc),
    (Config.countP_illegal _).trans (by decide), (Config.countP_illegal _).trans (by decide)⟩

/-- Settles O1, by running the decoder on each word. -/
theorem exampleWordsDecode : Obligations.ExampleWordsDecode := by
  unfold Obligations.ExampleWordsDecode
  decide

/-! ## The optional row SUB -/

/-- Without EXT_SUB the byte that the map gives SUB is illegal (30_encoding.md R61). -/
theorem Config.kindOf?_sub_of_not_extSub {c : Config} (h : c.extSub = false) : c.kindOf? c.opcodeMap.sub = none := by
  simp [Config.kindOf?, Config.gated, h]

/-- With EXT_SUB the decoder knows every row (30_encoding.md R61). -/
theorem Config.decodes_of_extSub {c : Config} (h : c.extSub = true) (k : Kind) : c.decodes k = true := by
  simp [Config.decodes, h]

/-- Settles O5: the byte 0xA1 and SUB's byte by the option's two values. -/
theorem subIsDecodedOnlyWithTheOption : Obligations.SubIsDecodedOnlyWithTheOption := by
  unfold Obligations.SubIsDecodedOnlyWithTheOption
  refine ⟨fun c b1 b2 h => decode_of_kindOf?_none (Config.kindOf?_A1 h), fun c b1 b2 hc => ?_⟩
  cases hx : c.extSub with
  | false => exact decode_of_kindOf?_none (Config.kindOf?_sub_of_not_extSub hx)
  | true =>
    have hk : c.kindOf? c.opcodeMap.sub = some .sub := Config.kindOf?_opcode hc (Config.decodes_of_extSub hx .sub)
    exact decode_of_kindOf? (f := ⟨c.opcodeMap.sub, b1, b2⟩) hk

end Sys2Proof

/-! SUPPORT. Proofs for the step: the instruction it runs (40_cycle.md R77, the placed word), the fetch beyond memory (R70), ST after it (R80), and its faults (60_exceptions.md R108 to R115). -/

namespace Sys2Proof.Machine

/-! ## The instruction that a step runs -/

/-- Settles O7: the three conditions are those of `State.executes`. -/
theorem stepRunsTheDecodedInstruction : Obligations.StepRunsTheDecodedInstruction := by
  unfold Obligations.StepRunsTheDecodedInstruction
  exact fun s i hr hp hd => step_of_executes ⟨hr, by omega, hd⟩

/-- Bytes that fit are placed as the loader loads them. -/
theorem Memory.place_eq_load : ∀ {bs : List Byte} {a : Nat} {m : Memory}, a + bs.length ≤ 256 →
    m.place a bs = Memory.load a bs m
  | [], _, _, _ => rfl
  | b :: bs, a, m, h => by
    rw [List.length_cons] at h
    rw [Memory.place, if_pos (show a ≤ 255 by omega), Memory.place_eq_load (by omega), Memory.load]

/-- A word placed at PC is what the next fetch reads. -/
theorem bytesAtPc_placeAtPc {s : State} (hp : s.pc.toNat ≤ 253) (hm : s.mem.wf = true) (f : Fetched) :
    (s.placeAtPc f).bytesAtPc = f := by
  have hlen : s.pc.toNat + [f.b0, f.b1, f.b2].length ≤ 256 := by simp only [List.length_cons, List.length_nil]; omega
  obtain ⟨inside, -⟩ := Memory.read_load hm hlen
  have hmem : (s.placeAtPc f).mem = Memory.load s.pc.toNat [f.b0, f.b1, f.b2] s.mem := Memory.place_eq_load hlen
  have hpc : (s.placeAtPc f).pc = s.pc := rfl
  have h0 := inside 0 (by simp)
  rw [Nat.add_zero] at h0
  have h1 := inside 1 (by simp)
  have h2 := inside 2 (by simp)
  rw [State.bytesAtPc, hmem, hpc, h0, h1, h2]
  rfl

/-- Placing turns EXT_SUB on where the byte needs it, so a byte that the map gives a kind is known afterwards. -/
theorem kindOf?_placeAtPc {s : State} {f : Fetched} {k : Kind} (h : s.cfg.opcodeMap.kindOf? f.b0 = some k) :
    (s.placeAtPc f).cfg.kindOf? f.b0 = some k := by
  refine Config.kindOf?_eq_some.2 ⟨h, ?_⟩
  change ((s.cfg.extSub || s.cfg.gated f.b0) || !s.cfg.gated (s.cfg.opcodeMap.opcode k)) = true
  rw [OpcodeMap.opcode_of_kindOf? h]
  cases s.cfg.gated f.b0 <;> simp

/-- A word that decodes to an instruction decodes to it with every row of the table on. -/
theorem decode_wholeTable_of_decodeTableWord {nbits w : Nat} {i : Instr} (h : decodeTableWord nbits w = some i) :
    decode Config.wholeTable (Fetched.ofTableWord nbits w) = .instr i := by
  unfold decodeTableWord at h
  split at h
  · rename_i j hj; rw [hj, Option.some.inj h]
  · cases h

/-- Settles O8: the placed bytes are fetched again, and the machine's decoder finds the kind that the whole table has. -/
theorem placedWordIsTheInstructionRun : Obligations.PlacedWordIsTheInstructionRun := by
  unfold Obligations.PlacedWordIsTheInstructionRun
  intro s nbits w i hr hp hm hmap hw
  obtain ⟨k, hk, rfl⟩ := decode_instr_inv (decode_wholeTable_of_decodeTableWord hw)
  have hmapk : s.cfg.opcodeMap.kindOf? (Fetched.ofTableWord nbits w).b0 = some k :=
    hmap ▸ (Config.kindOf?_eq_some.1 hk).1
  have hd : decode (s.withFetchWord nbits w).cfg (Fetched.ofTableWord nbits w) = .instr (k.instr _ _) :=
    decode_of_kindOf? (kindOf?_placeAtPc hmapk)
  have hb : (s.withFetchWord nbits w).bytesAtPc = Fetched.ofTableWord nbits w := bytesAtPc_placeAtPc hp hm _
  have hpc : (s.withFetchWord nbits w).pc.toNat + 2 ≤ 255 := Nat.add_le_add_right hp 2
  exact step_of_executes ⟨hr, hpc, by rw [hb]; exact hd⟩

/-! ## The fetch beyond memory -/

/-- The info of a fetch fault is the first address above 255, whole: PC has 9 bits. -/
theorem toNat_fetchFault_info (p : PcWord) : (BitVec.ofNat 9 (max p.toNat 256)).toNat = max p.toNat 256 :=
  toNat_info_of_lt (by have := p.isLt; omega)

/-- Settles O11: the step of the fetch's fault, whose record 9 bits hold whole. -/
theorem fetchBeyondMemoryFaults : Obligations.FetchBeyondMemoryFaults := by
  unfold Obligations.FetchBeyondMemoryFaults
  exact fun s hr hp => ⟨_, rfl, toNat_fetchFault_info s.pc, step_of_fetchFault hr hp⟩

/-! ## ST after a step -/

/-- Settles O12: the inversion of `step` by `State.raisesFault`, and each effect's ST. -/
theorem runStateAfterAStep : Obligations.RunStateAfterAStep := by
  unfold Obligations.RunStateAfterAStep
  refine fun s t hr h => ⟨fun hi => ?halts, fun hf => ?faults, fun hn hnf => ?goesOn⟩
  case halts => rw [eq_halted_of_executes_hlt hi h]
  case faults =>
    obtain ⟨-, r, rfl⟩ | ⟨hnf, -⟩ := step_takesFault_or_effect h
    · exact ⟨r, takeFault_st s r⟩
    · exact absurd hf hnf
  case goesOn =>
    obtain ⟨hf, -⟩ | ⟨-, i, hi, he⟩ := step_takesFault_or_effect h
    · exact absurd hf hnf
    · have hne : i ≠ .hlt := fun heq => hn (heq ▸ hi)
      rw [he.st_eq, if_neg hne, hr]

/-- The record found in ST is that of the fault taken. -/
theorem record_eq_of_takeFault {s t : State} {r r' : FaultRecord} (ht : t = s.takeFault r') (hf : t.st = .faulted r) :
    r' = r := by
  subst ht
  exact RunState.faulted.inj hf

/-- A step that ends in Faulted has taken that fault. -/
theorem eq_takeFault_of_step_faulted {s t : State} {r : FaultRecord} (h : step s = .next t) (hf : t.st = .faulted r) :
    t = s.takeFault r := by
  obtain ⟨-, r', ht⟩ | ⟨-, i, -, he⟩ := step_takesFault_or_effect h
  · rw [ht, record_eq_of_takeFault ht hf]
  · obtain ⟨hr, -⟩ := step_cases h
    exact absurd hf (he.st_ne_faulted hr r)

/-- Settles O13: the fault that was taken changes ST alone. -/
theorem faultingStepCommitsNothing : Obligations.FaultingStepCommitsNothing := by
  unfold Obligations.FaultingStepCommitsNothing
  exact fun s t r => eq_takeFault_of_step_faulted

/-! ## The order of the faults -/

/-- An operand byte that names a register wherever it is used as one does not fail the operand check. -/
theorem operandCheck_passes {uses : Bool} {b : Byte} (h : uses = true → b.toNat ≤ 7) :
    (uses && !regByteOk b) = false := by
  cases uses with
  | false => rfl
  | true => simpa [regByteOk] using h rfl

/-- The byte of a bad register index stands whole in the record. -/
theorem toNat_byte_info (b : Byte) : (BitVec.ofNat 9 b.toNat).toNat = b.toNat :=
  toNat_info_of_lt (by omega)

/-- A step whose instruction has a bad register index faults on the first one. -/
theorem step_of_badRegister {s t : State} {i : Instr} {b : Byte} (hi : s.executes i) (hb : badRegister? i = some b)
    (h : step s = .next t) : ∃ r, t.st = .faulted r ∧ r.cause = .outOfRange .register ∧ r.info.toNat = b.toNat := by
  rw [step_of_executes hi, exec_of_badRegister hb] at h
  injection h with h
  exact ⟨_, h ▸ takeFault_st .., rfl, toNat_byte_info b⟩

/-- The fault after the operand check and the kinds that raise it (60_exceptions.md R108). -/
theorem OwnFault.cause_kind {i : Instr} {s : State} {r : FaultRecord} (h : OwnFault i s r) :
    (r.cause = .divisionByZero ∧ i.kind = .mod) ∨
      (r.cause = .outOfRange .stack ∧ (i.kind = .push ∨ i.kind = .pop ∨ i.kind = .call ∨ i.kind = .ret)) := by
  obtain ⟨d, e, rfl, -, rfl⟩ | ⟨hk, -, rfl⟩ | ⟨hk, -, rfl⟩ := h
  · exact .inl ⟨rfl, rfl⟩
  · exact .inr ⟨rfl, by tauto⟩
  · exact .inr ⟨rfl, by tauto⟩

/-- Settles O14: the fetch's fault, then the decoder's, then the first bad register index, then the instruction's own. -/
theorem faultsComeInStageOrder : Obligations.FaultsComeInStageOrder := by
  unfold Obligations.FaultsComeInStageOrder
  refine fun s t hr h => ⟨fun hp => ?fetch, fun hp hk => ?opcode, fun k hp hk => ?instruction⟩
  case fetch =>
    rw [step_of_fetchFault hr hp] at h
    injection h with h
    exact ⟨_, h ▸ takeFault_st .., rfl⟩
  case opcode =>
    rw [step_of_illegal hr hp hk] at h
    injection h with h
    exact ⟨_, h ▸ takeFault_st .., rfl⟩
  case instruction =>
    have hi : s.executes (k.instr s.bytesAtPc.b1 s.bytesAtPc.b2) := ⟨hr, by omega, decode_of_kindOf? hk⟩
    have hbad := badRegister?_instr k s.bytesAtPc.b1 s.bytesAtPc.b2
    refine ⟨fun hua ha => ?ra, fun ha hub hb => ?rb, fun ha hb r hf => ?own⟩
    case ra => exact step_of_badRegister hi (by simp [hbad, hua, regByteOk_above ha]) h
    case rb =>
      rw [operandCheck_passes ha] at hbad
      exact step_of_badRegister hi (by simp [hbad, hub, regByteOk_above hb]) h
    case own =>
      rw [operandCheck_passes ha, operandCheck_passes hb] at hbad
      rw [step_of_executes hi] at h
      simpa using (ownFault_of_exec_faulted hbad h hr hf).cause_kind

/-! ## The records that faults leave -/

/-- The record of an instruction's own fault is a row of 60_exceptions.md R108. -/
theorem recordLegal_of_ownFault {i : Instr} {s : State} {r : FaultRecord} (h : OwnFault i s r) (c : Config) :
    recordLegal c r := by
  obtain ⟨d, e, -, -, rfl⟩ | ⟨-, -, rfl⟩ | ⟨-, -, rfl⟩ := h
  · change (BitVec.ofNat 9 e.val).toNat ≤ 7
    rw [toNat_info_of_lt (by omega)]
    omega
  · exact .inl rfl
  · exact .inr rfl

/-- The record of a bad register index is a row of 60_exceptions.md R108. -/
theorem recordLegal_badRegister {b : Byte} (h : 7 < b.toNat) (c : Config) :
    recordLegal c ⟨.outOfRange .register, BitVec.ofNat 9 b.toNat⟩ := by
  change 8 ≤ (BitVec.ofNat 9 b.toNat).toNat ∧ (BitVec.ofNat 9 b.toNat).toNat ≤ 255
  rw [toNat_byte_info]
  omega

/-- Every fault that a step can take, with its record (60_exceptions.md R108). -/
inductive StepFault (s : State) : FaultRecord → Prop where
  | fetch : StepFault s ⟨.outOfRange .memory, BitVec.ofNat 9 (max s.pc.toNat 256)⟩
  | illegal (hk : s.cfg.kindOf? s.bytesAtPc.b0 = none) :
      StepFault s ⟨.unknownOpcode, BitVec.ofNat 9 s.bytesAtPc.b0.toNat⟩
  | badRegister (b : Byte) (hb : 7 < b.toNat) : StepFault s ⟨.outOfRange .register, BitVec.ofNat 9 b.toNat⟩
  | own (i : Instr) (r : FaultRecord) (ho : OwnFault i s r) : StepFault s r

/-- The inversion of a step that ends in Faulted. -/
theorem stepFault_of_step_faulted {s t : State} {r : FaultRecord} (h : step s = .next t) (hf : t.st = .faulted r) :
    StepFault s r := by
  obtain ⟨hr, hc⟩ := step_cases h
  cases hc with
  | fetchFault hp ht => exact record_eq_of_takeFault ht hf ▸ .fetch
  | illegal hp hk ht => exact record_eq_of_takeFault ht hf ▸ .illegal hk
  | runs i hi hx =>
    cases exec_cases hx with
    | badRegister b _ hb ht => exact record_eq_of_takeFault ht hf ▸ .badRegister b hb
    | ownFault r' _ ho ht => exact record_eq_of_takeFault ht hf ▸ .own i r' ho
    | effect _ he => exact absurd hf (he.st_ne_faulted hr r)

/-- With PC in range every fault of a step leaves a row of 60_exceptions.md R108. -/
theorem StepFault.recordLegal_of_pc_le {s : State} {r : FaultRecord} (h : StepFault s r) (hpc : s.pc.toNat ≤ 256) :
    recordLegal s.cfg r := by
  cases h with
  | fetch => exact (toNat_fetchFault_info s.pc).trans (Nat.max_eq_right hpc)
  | illegal hk => exact ⟨_, hk, toNat_byte_info _⟩
  | badRegister b hb => exact recordLegal_badRegister hb s.cfg
  | own i r ho => exact recordLegal_of_ownFault ho s.cfg

/-! ## UnsupportedOperation -/

/-- No fault of a step is UnsupportedOperation (60_exceptions.md R114). -/
theorem StepFault.cause_ne_unsupportedOperation {s : State} {r : FaultRecord} (h : StepFault s r) :
    r.cause ≠ .unsupportedOperation := by
  cases h with
  | fetch | illegal hk | badRegister b hb => exact Cause.noConfusion
  | own i r ho => obtain hc | hc := ho.cause_eq <;> rw [hc] <;> exact Cause.noConfusion

/-- Every operation of the ALU's own answers a byte, flags or MOD's fault (42_alu.md R85). -/
theorem alu_eq_unsupportedOperation_iff (op : Kind) (a b : Byte) :
    alu op a b = .fails .unsupportedOperation ↔
      op ∈ [Kind.hlt, .ret, .push, .pop, .prn, .call, .jmp, .jeq, .jne, .ldi] := by
  cases op with
  | hlt | ret | push | pop | prn | call | jmp | jeq | jne | ldi => exact iff_of_true rfl (by decide)
  | add | sub | mul | and | or | xor | not | shl | shr | cmp => exact iff_of_false AluAnswer.noConfusion (by decide)
  | mod =>
    refine iff_of_false (fun h => ?_) (by decide)
    by_cases hb : b = 0
    · rw [hb, alu_mod_zero] at h; cases h
    · rw [alu_mod_of_ne a hb] at h; cases h

/-- Settles O15: the ALU by its operation, a step by the faults it can take. -/
theorem unsupportedOperationIsNeverRaised : Obligations.UnsupportedOperationIsNeverRaised := by
  unfold Obligations.UnsupportedOperationIsNeverRaised
  exact ⟨alu_eq_unsupportedOperation_iff, fun s t r h hf => (stepFault_of_step_faulted h hf).cause_ne_unsupportedOperation⟩

end Sys2Proof.Machine

/-! SUPPORT. Proofs for the state's fields: what an instruction and a step write to memory, the registers, OUT and PC (20_memory.md R40; 10_state.md R18, R24, R34; 40_cycle.md R78), and what a run keeps. -/

namespace Sys2Proof.Machine

/-! ## What an effect writes to each field -/

/-- No effect changes the parameters (00_scope.md R15). -/
theorem Effect.cfg_eq {i : Instr} {s t : State} (h : Effect i s t) : t.cfg = s.cfg := by
  cases i with
  | hlt => subst h; rfl
  | ret => obtain ⟨-, rfl⟩ := h; rfl
  | prn ra | jmp ra | ldi ra imm => obtain ⟨d, -, rfl⟩ := h; rfl
  | push ra | call ra => obtain ⟨d, -, -, rfl⟩ := h; rfl
  | pop ra => obtain ⟨d, u, -, rfl, -, rfl⟩ := h; rfl
  | jeq ra | jne ra => obtain ⟨d, -, rfl⟩ := h; split <;> rfl
  | not ra => obtain ⟨d, v, -, -, rfl⟩ := h; rfl
  | cmp ra rb => obtain ⟨d, e, -, -, rfl⟩ := h; rfl
  | add ra rb | sub ra rb | mul ra rb | mod ra rb | and ra rb | or ra rb | xor ra rb | shl ra rb | shr ra rb =>
    obtain ⟨d, e, v, -, -, -, rfl⟩ := h; rfl

/-- An effect on memory: PUSH and CALL store one byte below SP, every other instruction stores nothing (20_memory.md R40). -/
theorem Effect.mem_eq {i : Instr} {s t : State} (h : Effect i s t) :
    t.mem = s.mem ∨
      (i.kind = .push ∨ i.kind = .call) ∧ s.sp ≠ 0 ∧ ∃ v, t.mem = s.mem.write (s.sp - 1).toNat v := by
  cases i with
  | push ra => obtain ⟨d, -, hs, rfl⟩ := h; exact .inr ⟨.inl rfl, hs, _, rfl⟩
  | call ra => obtain ⟨d, -, hs, rfl⟩ := h; exact .inr ⟨.inr rfl, hs, _, rfl⟩
  | hlt => subst h; exact .inl rfl
  | ret => obtain ⟨-, rfl⟩ := h; exact .inl rfl
  | prn ra | jmp ra | ldi ra imm => obtain ⟨d, -, rfl⟩ := h; exact .inl rfl
  | pop ra => obtain ⟨d, u, -, rfl, -, rfl⟩ := h; exact .inl rfl
  | jeq ra | jne ra => obtain ⟨d, -, rfl⟩ := h; left; split <;> rfl
  | not ra => obtain ⟨d, v, -, -, rfl⟩ := h; exact .inl rfl
  | cmp ra rb => obtain ⟨d, e, -, -, rfl⟩ := h; exact .inl rfl
  | add ra rb | sub ra rb | mul ra rb | mod ra rb | and ra rb | or ra rb | xor ra rb | shl ra rb | shr ra rb =>
    obtain ⟨d, e, v, -, -, -, rfl⟩ := h; exact .inl rfl

/-- An effect on PC: HLT keeps it, a control transfer may set it to a byte, every other instruction goes on by its
length (40_cycle.md R78). -/
theorem Effect.pc_eq {i : Instr} {s t : State} (h : Effect i s t) :
    (i = .hlt ∧ t.pc = s.pc) ∨
      (i.kind ∈ [Kind.ret, .jmp, .call, .jeq, .jne] ∧ ∃ v : Byte, t.pc = v.zeroExtend 9) ∨
      t.pc = s.pc + BitVec.ofNat 9 i.kind.length := by
  cases i with
  | hlt => subst h; exact .inl ⟨rfl, rfl⟩
  | ret => obtain ⟨-, rfl⟩ := h; exact .inr (.inl ⟨by simp [Instr.kind], _, rfl⟩)
  | jmp ra => obtain ⟨d, -, rfl⟩ := h; exact .inr (.inl ⟨by simp [Instr.kind], _, rfl⟩)
  | call ra => obtain ⟨d, -, -, rfl⟩ := h; exact .inr (.inl ⟨by simp [Instr.kind], _, rfl⟩)
  | jeq ra | jne ra =>
    obtain ⟨d, -, rfl⟩ := h
    split
    · exact .inr (.inl ⟨by simp [Instr.kind], _, rfl⟩)
    · exact .inr (.inr rfl)
  | prn ra | ldi ra imm => obtain ⟨d, -, rfl⟩ := h; exact .inr (.inr rfl)
  | push ra => obtain ⟨d, -, -, rfl⟩ := h; exact .inr (.inr rfl)
  | pop ra => obtain ⟨d, u, -, rfl, -, rfl⟩ := h; exact .inr (.inr rfl)
  | not ra => obtain ⟨d, v, -, -, rfl⟩ := h; exact .inr (.inr rfl)
  | cmp ra rb => obtain ⟨d, e, -, -, rfl⟩ := h; exact .inr (.inr rfl)
  | add ra rb | sub ra rb | mul ra rb | mod ra rb | and ra rb | or ra rb | xor ra rb | shl ra rb | shr ra rb =>
    obtain ⟨d, e, v, -, -, -, rfl⟩ := h; exact .inr (.inr rfl)

/-- The registers an instruction may write: its named destination, and SP in the four stack instructions (10_state.md R18). -/
def WritesReg (i : Instr) (d : Fin 8) : Prop :=
  (i.kind ∈ [Kind.ldi, .add, .sub, .mul, .mod, .and, .or, .xor, .not, .shl, .shr, .pop] ∧
      i.operands.head? = some (regByte d)) ∨
    (i.kind ∈ [Kind.push, .pop, .call, .ret] ∧ d = spIndex)

/-- A register that an instruction may not write keeps its value in the instruction's effect. -/
theorem Effect.reg_eq {i : Instr} {s t : State} {d : Fin 8} (h : Effect i s t) (hd : ¬ WritesReg i d) :
    t.reg d = s.reg d := by
  cases i with
  | hlt => subst h; rfl
  | prn ra | jmp ra => obtain ⟨e, -, rfl⟩ := h; rfl
  | jeq ra | jne ra => obtain ⟨e, -, rfl⟩ := h; split <;> rfl
  | cmp ra rb => obtain ⟨e, f, -, -, rfl⟩ := h; rfl
  | ret =>
    obtain ⟨-, rfl⟩ := h
    exact reg_setReg_of_ne _ _ _ fun hsp => hd (.inr ⟨by decide, hsp⟩)
  | push ra | call ra =>
    obtain ⟨e, -, -, rfl⟩ := h
    exact reg_setReg_of_ne _ _ _ fun hsp => hd (.inr ⟨by simp [Instr.kind], hsp⟩)
  | pop ra =>
    obtain ⟨e, u, rfl, rfl, -, rfl⟩ := h
    have hsp : d ≠ spIndex := fun hsp => hd (.inr ⟨by simp [Instr.kind], hsp⟩)
    have hde : d ≠ e := fun hde => hd (.inl ⟨by simp [Instr.kind], hde ▸ rfl⟩)
    exact (reg_setReg_of_ne _ _ _ hsp).trans (reg_setReg_of_ne _ _ _ hde)
  | ldi ra imm =>
    obtain ⟨e, rfl, rfl⟩ := h
    exact reg_setReg_of_ne _ _ _ fun hde => hd (.inl ⟨by simp [Instr.kind], hde ▸ rfl⟩)
  | not ra =>
    obtain ⟨e, v, rfl, -, rfl⟩ := h
    exact reg_setReg_of_ne _ _ _ fun hde => hd (.inl ⟨by simp [Instr.kind], hde ▸ rfl⟩)
  | add ra rb | sub ra rb | mul ra rb | mod ra rb | and ra rb | or ra rb | xor ra rb | shl ra rb | shr ra rb =>
    obtain ⟨e, f, v, rfl, -, -, rfl⟩ := h
    exact reg_setReg_of_ne _ _ _ fun hde => hd (.inl ⟨by simp [Instr.kind], hde ▸ rfl⟩)

/-! ## Who writes memory, the registers and OUT -/

/-- Below a nonzero SP there is an address. -/
theorem toNat_sub_one {b : Byte} (h : b ≠ 0) : (b - 1).toNat = b.toNat - 1 := by bv_omega

/-- Settles O21: a fault stores nothing, and of the effects only PUSH's and CALL's store, at SP - 1. -/
theorem memoryChangesOnlyBelowSp : Obligations.MemoryChangesOnlyBelowSp := by
  unfold Obligations.MemoryChangesOnlyBelowSp
  intro s t a h hne
  obtain ⟨-, r, rfl⟩ | ⟨-, i, hi, he⟩ := step_takesFault_or_effect h
  · exact absurd rfl hne
  · obtain hm | ⟨hk, hs, v, hm⟩ := he.mem_eq
    · exact absurd (by rw [hm]) hne
    · refine ⟨?executes, by bv_omega, ?address⟩
      case executes =>
        cases i <;> simp only [Instr.kind, reduceCtorEq, or_self] at hk
        case push ra => exact ⟨ra, .inl hi⟩
        case call ra => exact ⟨ra, .inr hi⟩
      case address =>
        by_contra ha
        rw [hm, Memory.read_write_ne v (toNat_sub_one hs ▸ ha)] at hne
        exact hne rfl

/-- Settles O22: a fault writes no register, and an effect only those of `WritesReg`. -/
theorem registersChangeOnlyAsNamed : Obligations.RegistersChangeOnlyAsNamed := by
  unfold Obligations.RegistersChangeOnlyAsNamed
  intro s t d h hne
  obtain ⟨-, r, rfl⟩ | ⟨-, i, hi, he⟩ := step_takesFault_or_effect h
  · exact absurd rfl hne
  · refine ⟨i, hi, ?_⟩
    by_contra hw
    exact hne (he.reg_eq hw)

/-- Settles O23: a fault emits nothing, and of the effects only PRN's does. -/
theorem outputGrowsOnlyByPrn : Obligations.OutputGrowsOnlyByPrn := by
  unfold Obligations.OutputGrowsOnlyByPrn
  intro s t h
  obtain ⟨-, r, rfl⟩ | ⟨-, i, hi, he⟩ := step_takesFault_or_effect h
  · exact .inl rfl
  · exact he.out_eq.imp_right fun ⟨d, hd, ho⟩ => ⟨d, hd ▸ hi, ho⟩

/-- No step changes the parameters (00_scope.md R15). -/
theorem cfg_eq_of_step {s t : State} (h : step s = .next t) : t.cfg = s.cfg := by
  obtain ⟨-, r, rfl⟩ | ⟨-, i, -, he⟩ := step_takesFault_or_effect h
  · rfl
  · exact he.cfg_eq

/-- Settles O24, by induction on the number of steps. -/
theorem runsOnlyAppendToTheOutput : Obligations.RunsOnlyAppendToTheOutput := by
  unfold Obligations.RunsOnlyAppendToTheOutput
  intro k
  induction k with
  | zero =>
    intro s t h
    injection h with h
    exact ⟨⟨[], by rw [h, List.append_nil]⟩, by rw [h]⟩
  | succ k ih =>
    intro s t h
    obtain ⟨u, hu, hrun⟩ := run_succ_inv h
    obtain ⟨⟨emitted, hout⟩, hcfg⟩ := ih u t hrun
    refine ⟨?_, hcfg.trans (cfg_eq_of_step hu)⟩
    obtain ho | ⟨d, -, ho⟩ := outputGrowsOnlyByPrn s u hu
    · exact ⟨emitted, by rw [hout, ho]⟩
    · exact ⟨[s.reg d] ++ emitted, by rw [hout, ho, List.append_assoc]⟩

/-! ## PC -/

/-- A byte target is widened with zeros (44_control.md R102). -/
theorem toNat_zeroExtend_byte (v : Byte) : (v.zeroExtend 9).toNat = v.toNat := by
  simp [BitVec.toNat_setWidth]
  omega

/-- An instruction has at most 3 bytes (30_encoding.md R53). -/
theorem length_le_three (k : Kind) : k.length ≤ 3 := by cases k <;> decide

/-- Going on by an instruction's length from an address it can be fetched at does not wrap (10_state.md R24). -/
theorem toNat_advance {s : State} (hp : s.pc.toNat + 2 ≤ 255) (k : Kind) :
    (s.pc + BitVec.ofNat 9 k.length).toNat = s.pc.toNat + k.length := by
  have := length_le_three k
  rw [BitVec.toNat_add, BitVec.toNat_ofNat]
  omega

/-- PC after an executed instruction's effect: as before for HLT, a byte, or on by the instruction's length. -/
theorem toNat_pc_of_effect {i : Instr} {s t : State} (hi : s.executes i) (h : Effect i s t) :
    (i = .hlt ∧ t.pc = s.pc) ∨ t.pc.toNat ≤ 255 ∨ t.pc.toNat = s.pc.toNat + i.kind.length := by
  obtain ⟨-, hp, -⟩ := hi
  obtain hh | ⟨-, v, hv⟩ | ha := h.pc_eq
  · exact .inl hh
  · refine .inr (.inl ?_)
    rw [hv, toNat_zeroExtend_byte]
    omega
  · exact .inr (.inr (by rw [ha, toNat_advance hp]))

/-- An executed instruction that neither halts nor transfers control goes on by its length. -/
theorem toNat_pc_of_effect_advance {i : Instr} {s t : State} (hi : s.executes i) (h : Effect i s t)
    (hk : i.kind ∉ [Kind.hlt, .ret, .jmp, .call, .jeq, .jne]) : t.pc.toNat = s.pc.toNat + i.kind.length := by
  obtain ⟨-, hp, -⟩ := hi
  obtain ⟨rfl, -⟩ | ⟨hj, -⟩ | ha := h.pc_eq
  · exact absurd (List.mem_cons_self ..) hk
  · exact absurd (List.mem_cons_of_mem _ hj) hk
  · rw [ha, toNat_advance hp]

/-- A step that executes an instruction and does not fault has that instruction's effect. -/
theorem effect_of_executes {s t : State} {i : Instr} (hi : s.executes i) (h : step s = .next t)
    (hn : ∀ r, t.st ≠ .faulted r) : Effect i s t := by
  obtain ⟨-, r, rfl⟩ | ⟨-, j, hj, he⟩ := step_takesFault_or_effect h
  · exact absurd (takeFault_st s r) (hn r)
  · exact executes_unique hj hi ▸ he

/-- Settles O25: the control transfers by their effects, the other instructions by their lengths. -/
theorem pcAfterEachInstruction : Obligations.PcAfterEachInstruction := by
  unfold Obligations.PcAfterEachInstruction
  intro s t i hi h hn
  have he := effect_of_executes hi h hn
  obtain ⟨-, hp, -⟩ := id hi
  refine ⟨fun hk => ?hlt, fun hk => ?ret, fun d hd => ?callOrJmp, fun d hd => ?jeq, fun d hd => ?jne,
    fun hk => ?two, fun hk => ?three⟩
  case hlt =>
    cases i <;> simp only [Instr.kind, reduceCtorEq] at hk
    rw [show t = _ from he]
  case ret =>
    cases i <;> simp only [Instr.kind, reduceCtorEq] at hk
    obtain ⟨-, rfl⟩ := he
    exact toNat_zeroExtend_byte _
  case callOrJmp =>
    obtain rfl | rfl := hd
    · obtain ⟨e, hde, -, rfl⟩ := he
      exact regByte_inj hde ▸ toNat_zeroExtend_byte _
    · obtain ⟨e, hde, rfl⟩ := he
      exact regByte_inj hde ▸ toNat_zeroExtend_byte _
  case jeq =>
    subst hd
    obtain ⟨e, hde, rfl⟩ := he
    rw [regByte_inj hde, testFlags]
    split
    · exact toNat_zeroExtend_byte _
    · exact toNat_advance hp .jeq
  case jne =>
    subst hd
    obtain ⟨e, hde, rfl⟩ := he
    rw [regByte_inj hde, testFlags]
    cases s.fl.getLsbD 0 with
    | false => exact toNat_zeroExtend_byte _
    | true => exact toNat_advance hp .jne
  case two =>
    obtain ⟨hadv, hlen⟩ := (by decide : ∀ k ∈ [Kind.prn, .not, .push, .pop],
      k ∉ [Kind.hlt, .ret, .jmp, .call, .jeq, .jne] ∧ k.length = 2) _ hk
    rw [toNat_pc_of_effect_advance hi he hadv, hlen]
  case three =>
    obtain ⟨hadv, hlen⟩ := (by decide : ∀ k ∈ [Kind.ldi, .add, .sub, .mul, .cmp, .and, .or, .xor, .shl, .shr, .mod],
      k ∉ [Kind.hlt, .ret, .jmp, .call, .jeq, .jne] ∧ k.length = 3) _ hk
    rw [toNat_pc_of_effect_advance hi he hadv, hlen]

/-- Settles O26: only going on by 3 from 253 passes 255, and the step from 256 is the fetch's fault. -/
theorem pcPassesMemoryOnlyFrom253 : Obligations.PcPassesMemoryOnlyFrom253 := by
  unfold Obligations.PcPassesMemoryOnlyFrom253
  intro s t hle h hgt
  obtain ⟨-, r, rfl⟩ | ⟨-, i, hi, he⟩ := step_takesFault_or_effect h
  · rw [takeFault_pc] at hgt
    omega
  · obtain ⟨hr, hp, -⟩ := id hi
    have hlen := length_le_three i.kind
    obtain ⟨-, hpc⟩ | hpc | hpc := toNat_pc_of_effect hi he
    · rw [hpc] at hgt
      omega
    · omega
    · have hne : i ≠ .hlt := by
        rintro rfl
        rw [show Instr.hlt.kind.length = 1 from rfl] at hpc
        omega
      have ht : t.st = .running := by rw [he.st_eq, if_neg hne, hr]
      have h256 : t.pc.toNat = 256 := by omega
      refine ⟨by omega, h256, ⟨i, hi, by omega⟩, _, _, step_of_fetchFault ht (by omega), rfl, rfl, ?_⟩
      rw [toNat_fetchFault_info, h256, Nat.max_self]

end Sys2Proof.Machine

/-! SUPPORT. Proofs for the machine's invariant (10_state.md R22, R28; 60_exceptions.md R108), the canonical form of memory (log 31), the initial state (70_reset_and_hazards.md R122 to R125) and the numbers of ST (10_state.md R31). -/

namespace Sys2Proof.Machine

/-! ## The invariant at the start -/

/-- A booted machine whose image fits meets the invariant. -/
theorem inv_boot (c : Config) {image : List Byte} (hl : image.length ≤ 256) : (State.boot c image).Inv where
  memory := Memory.wf_load rfl (by omega)
  pc := Nat.zero_le 256
  flags := .inl rfl
  record r h := by cases h

/-- The state after reset is the boot of the empty image with the default parameters. -/
theorem boot_nil : State.boot Config.default [] = State.reset := rfl

/-- Settles O17: reset is the boot of the empty image. -/
theorem invariantAtReset : Obligations.InvariantAtReset := by
  unfold Obligations.InvariantAtReset
  exact boot_nil ▸ inv_boot Config.default (Nat.zero_le 256)

/-- Settles O18: a launched state is a booted one, whose memory the loader keeps canonical. -/
theorem invariantAtLaunch : Obligations.InvariantAtLaunch := by
  unfold Obligations.InvariantAtLaunch
  intro c image t h
  obtain ⟨hl, rfl⟩ := launch_eq_next_iff.1 h
  exact inv_boot c hl

/-! ## The invariant at a step -/

/-- The one byte an effect may store stands at an address that exists. -/
theorem Effect.mem_wf {i : Instr} {s t : State} (h : Effect i s t) (hm : s.mem.wf = true) : t.mem.wf = true := by
  obtain heq | ⟨-, -, v, heq⟩ := h.mem_eq
  · rw [heq, hm]
  · rw [heq]
    exact Memory.wf_write hm (by omega) v

/-- CMP's flags are legal (10_state.md R28). -/
theorem flagsLegal_flagsOfComparison (a b : Byte) : flagsLegal (flagsOfComparison a b) := by
  obtain ⟨-, h⟩ | ⟨-, h⟩ | ⟨-, h⟩ := flagsOfComparison_cases a b <;> simp [flagsLegal, h]

/-- CMP writes legal flags, and every other effect leaves FL as it is. -/
theorem Effect.flagsLegal {i : Instr} {s t : State} (h : Effect i s t) (hf : flagsLegal s.fl) : flagsLegal t.fl := by
  cases i with
  | cmp ra rb =>
    obtain ⟨d, e, -, -, rfl⟩ := h
    exact flagsLegal_flagsOfComparison _ _
  | _ =>
    rw [h.fl_eq fun _ _ => Instr.noConfusion]
    exact hf

/-- An executed instruction's effect leaves PC in 0 to 256 (10_state.md R24). -/
theorem pc_le_of_effect {i : Instr} {s t : State} (hi : s.executes i) (h : Effect i s t) : t.pc.toNat ≤ 256 := by
  obtain ⟨-, hp, -⟩ := id hi
  have hlen := length_le_three i.kind
  obtain ⟨-, hpc⟩ | hpc | hpc := toNat_pc_of_effect hi h
  · rw [hpc]; omega
  · omega
  · omega

/-- Settles O19: a fault leaves all but ST and records a row of R108; an effect keeps each part of the invariant. -/
theorem everyStepKeepsTheInvariant : Obligations.EveryStepKeepsTheInvariant := by
  unfold Obligations.EveryStepKeepsTheInvariant
  rintro s t ⟨hmem, hpc, hfl, -⟩ h
  have hrecord : ∀ r, t.st = .faulted r → recordLegal t.cfg r := fun r hf => by
    rw [cfg_eq_of_step h]
    exact (stepFault_of_step_faulted h hf).recordLegal_of_pc_le hpc
  obtain ⟨-, r, rfl⟩ | ⟨-, i, hi, he⟩ := step_takesFault_or_effect h
  · exact ⟨hmem, hpc, hfl, hrecord⟩
  · exact ⟨he.mem_wf hmem, pc_le_of_effect hi he, he.flagsLegal hfl, hrecord⟩

/-! ## The canonical form of memory -/

/-- A canonical memory holds a nonzero byte only from its start up. -/
theorem Memory.le_of_read_ne_zero {lo a : Nat} {m : Memory} (hm : Memory.wfFrom lo m = true) (h : m.read a ≠ 0) :
    lo ≤ a := by
  by_contra hlt
  exact h (Memory.read_below (by omega) hm)

theorem Memory.read_cons_same (a : Nat) (v : Byte) (rest : Memory) : Memory.read ((a, v) :: rest) a = v := if_pos rfl

theorem Memory.read_cons_of_ne {a b : Nat} (h : b ≠ a) (v : Byte) (rest : Memory) :
    Memory.read ((a, v) :: rest) b = rest.read b := if_neg h

/-- A canonical memory starts at the entry it lists first. -/
theorem Memory.wfFrom_head {lo a : Nat} {v : Byte} {rest : Memory} (h : Memory.wfFrom lo ((a, v) :: rest) = true) :
    Memory.wfFrom a ((a, v) :: rest) = true := by
  obtain ⟨-, hentry⟩ := (Memory.wfFrom_cons ..).1 h
  exact (Memory.wfFrom_cons ..).2 ⟨le_rfl, hentry⟩

/-- Canonical memories that read the same list the same entries: the first ones stand at the same address, since each
holds a nonzero byte there and the other lists nothing below its own first. -/
theorem Memory.eq_of_read_eq : ∀ {lo lo' : Nat} {m n : Memory}, Memory.wfFrom lo m = true → Memory.wfFrom lo' n = true →
    (∀ a, m.read a = n.read a) → m = n
  | _, _, [], [], _, _, _ => rfl
  | _, _, [], (b, w) :: n, _, hn, h => by
    obtain ⟨-, -, hw, -⟩ := (Memory.wfFrom_cons ..).1 hn
    exact absurd ((h b).trans (read_cons_same ..)).symm hw
  | _, _, (a, v) :: m, [], hm, _, h => by
    obtain ⟨-, -, hv, -⟩ := (Memory.wfFrom_cons ..).1 hm
    exact absurd ((read_cons_same ..).symm.trans (h a)) hv
  | _, _, (a, v) :: m, (b, w) :: n, hm, hn, h => by
    obtain ⟨-, -, hv, hm'⟩ := (Memory.wfFrom_cons ..).1 hm
    obtain ⟨-, -, hw, hn'⟩ := (Memory.wfFrom_cons ..).1 hn
    have hba : b ≤ a := le_of_read_ne_zero (wfFrom_head hn) (by rwa [← h a, read_cons_same])
    have hab : a ≤ b := le_of_read_ne_zero (wfFrom_head hm) (by rwa [h b, read_cons_same])
    obtain rfl : a = b := le_antisymm hab hba
    have hvw : v = w := by simpa only [read_cons_same] using h a
    have hrest : ∀ x, Memory.read m x = Memory.read n x := fun x => by
      by_cases hx : x = a
      · rw [hx, read_below (Nat.lt_succ_self a) hm', read_below (Nat.lt_succ_self a) hn']
      · simpa only [read_cons_of_ne hx] using h x
    rw [hvw, eq_of_read_eq hm' hn' hrest]

/-- Settles O28: both memories are canonical from address 0. -/
theorem equalMemoriesAreEqualData : Obligations.EqualMemoriesAreEqualData := by
  unfold Obligations.EqualMemoriesAreEqualData
  exact fun m n => Memory.eq_of_read_eq

/-! ## The initial state -/

/-- The registers of R122: SP_INIT in register 7, 0 in the others. -/
theorem reg_boot (c : Config) (image : List Byte) (d : Fin 8) :
    (State.boot c image).reg d = if d = 7 then c.spInit else 0 := by
  fin_cases d <;> rfl

/-- Settles O30: an image that fits launches the booted state, from the reset input too; a longer one is refused. -/
theorem resetGivesTheInitialState : Obligations.ResetGivesTheInitialState := by
  unfold Obligations.ResetGivesTheInitialState
  refine ⟨fun c image s hl hc => ?fits, fun c image hl => if_neg (by omega), ?empty, rfl⟩
  case fits =>
    have hlaunch : launch c image = .next (State.boot c image) := launch_eq_next_iff.2 ⟨hl, rfl⟩
    exact ⟨State.boot c image, hlaunch, hc ▸ hlaunch, reg_boot c image, rfl, rfl, fun a => read_boot_of_lt c hl,
      fun a => read_boot_of_ge c hl, rfl, rfl, rfl⟩
  case empty => exact launch_eq_next_iff.2 ⟨Nat.zero_le 256, boot_nil⟩

/-! ## The numbers of ST -/

/-- The cause read back from its numbers (60_exceptions.md R108). -/
def Cause.ofCodes (code : BitVec 3) (kind : BitVec 2) : Cause :=
  if code = 1 then .unknownOpcode
  else if code = 2 then .outOfRange (if kind = 0 then .memory else if kind = 1 then .register else .stack)
  else if code = 3 then .divisionByZero
  else .unsupportedOperation

/-- The numbers of a cause give it back. -/
theorem Cause.ofCodes_code (c : Cause) : Cause.ofCodes c.code c.kindCode = c := by
  cases c with
  | outOfRange kind => cases kind <;> rfl
  | unknownOpcode | divisionByZero | unsupportedOperation => rfl

/-- ST read back from its numbered fields (10_state.md R31). -/
def RunState.ofNumbers (mode : BitVec 2) (cause : BitVec 3) (kind : BitVec 2) (info : BitVec 9) : RunState :=
  if mode = 0 then .running
  else if mode = 1 then .halted
  else .faulted ⟨Cause.ofCodes cause kind, info⟩

/-- The numbered fields of ST give it back. -/
theorem RunState.ofNumbers_of_fields (x : RunState) : RunState.ofNumbers x.mode x.cause x.kind x.info = x := by
  cases x with
  | running | halted => rfl
  | faulted r =>
    change RunState.faulted ⟨Cause.ofCodes r.cause.code r.cause.kindCode, r.info⟩ = .faulted r
    rw [Cause.ofCodes_code]

/-- Settles O31: ST is read back from its numbers, so they tell every ending apart. -/
theorem statusTellsEveryEndingApart : Obligations.StatusTellsEveryEndingApart := by
  unfold Obligations.StatusTellsEveryEndingApart
  refine ⟨rfl, rfl, fun r => rfl, fun x y hm hc hk hi => ?injective, fun x hx => ?zero⟩
  case injective => rw [← x.ofNumbers_of_fields, hm, hc, hk, hi, y.ofNumbers_of_fields]
  case zero =>
    cases x with
    | running | halted => exact ⟨rfl, rfl, rfl⟩
    | faulted r => exact absurd rfl hx

end Sys2Proof.Machine

/-! SUPPORT. Proofs for the single instructions: LDI, PRN, HLT (41_data_io.md), the ALU's (42_alu.md section 2), the stack's (43_stack.md) and the control transfers (44_control.md), each on register operands. -/

namespace Sys2Proof.Machine

/-! ## Instructions on one register -/

/-- An instruction that checks one operand byte, on a register. -/
theorem commit_regOperand_regByte (s : State) (d : Fin 8) (f : Fin 8 → Result State) :
    commit s (regOperand (regByte d) >>= f) = commit s (f d) := by rw [regOperand_regByte, ok_bind]

/-- Settles O32: the operand check passes, and what is left is the write. -/
theorem ldiWritesTheImmediate : Obligations.LdiWritesTheImmediate := by
  unfold Obligations.LdiWritesTheImmediate
  exact fun d imm s => commit_regOperand_regByte s d _

/-- Settles O33: the operand check passes, and what is left is the output. -/
theorem prnEmitsTheRegister : Obligations.PrnEmitsTheRegister := by
  unfold Obligations.PrnEmitsTheRegister
  exact fun d s => commit_regOperand_regByte s d _

/-- Settles O34: HLT by its commit; a halted state has no step, since a step needs Running. -/
theorem hltHaltsForGood : Obligations.HltHaltsForGood := by
  unfold Obligations.HltHaltsForGood
  refine fun s => ⟨rfl, fun t h => ?_⟩
  obtain ⟨hr, -⟩ := step_cases h
  cases hr

/-- JMP on a register. -/
theorem exec_jmp_regByte (d : Fin 8) (s : State) : exec (.jmp (regByte d)) s = .next (s.jump (s.reg d)) :=
  commit_regOperand_regByte s d _

/-- Settles O47: the target is the register's byte, widened with zeros. -/
theorem jmpSetsPc : Obligations.JmpSetsPc := by
  unfold Obligations.JmpSetsPc
  exact fun d s => ⟨_, toNat_zeroExtend_byte (s.reg d), exec_jmp_regByte d s⟩

/-- A conditional jump on a register. -/
theorem commit_jumpIf_regByte (cond : Condition) (k : Kind) (d : Fin 8) (s : State) :
    commit s (jumpIf cond k (regByte d) s) =
      .next { s with pc := if testFlags s.fl cond then (s.reg d).zeroExtend 9 else s.pc + BitVec.ofNat 9 k.length } := by
  rw [jumpIf, commit_regOperand_regByte]
  split <;> rfl

/-- Settles O48: JEQ tests bit E, JNE its negation. -/
theorem conditionalJumpsTestEqual : Obligations.ConditionalJumpsTestEqual := by
  unfold Obligations.ConditionalJumpsTestEqual
  refine fun d s => ⟨commit_jumpIf_regByte .equal .jeq d s, (commit_jumpIf_regByte .notEqual .jne d s).trans ?_⟩
  rw [testFlags]
  cases s.fl.getLsbD 0 <;> rfl

/-! ## The ALU -/

/-- A two-operand ALU instruction whose answer is a byte writes it into register a. -/
theorem commit_aluBinary_value {op : Kind} {d e : Fin 8} {s : State} {v : Byte}
    (h : alu op (s.reg d) (s.reg e) = .value v) :
    commit s (aluBinary op (regByte d) (regByte e) s) = .next ((s.setReg d v).advance op) := by
  rw [aluBinary_regs, h, aluWriteBack_value, commit_ok]

/-- Settles O35: the exact sum, narrowed. -/
theorem addWrapsModulo256 : Obligations.AddWrapsModulo256 := by
  unfold Obligations.AddWrapsModulo256
  exact fun d e s => ⟨_, trunc8_ofNat_toNat ((s.reg d).toNat + (s.reg e).toNat), commit_aluBinary_value rfl⟩

/-- Settles O36: the exact difference, narrowed by the non-negative remainder. -/
theorem subWrapsModulo256 : Obligations.SubWrapsModulo256 := by
  unfold Obligations.SubWrapsModulo256
  refine fun d e s => ⟨_, ?_, commit_aluBinary_value rfl⟩
  have htrunc := trunc8_toNat ((s.reg d).toNat - (s.reg e).toNat)
  omega

/-- Settles O37: the exact product, narrowed. -/
theorem mulKeepsTheLowByte : Obligations.MulKeepsTheLowByte := by
  unfold Obligations.MulKeepsTheLowByte
  exact fun d e s => ⟨_, trunc8_ofNat_toNat ((s.reg d).toNat * (s.reg e).toNat), commit_aluBinary_value rfl⟩

/-- Narrowing keeps an exact result that fits a byte. -/
theorem trunc8_ofNat_toNat_of_lt {n : Nat} (h : n < 256) : (trunc8 (n : Int)).toNat = n := by
  rw [trunc8_ofNat_toNat, Nat.mod_eq_of_lt h]

/-- MOD by a register that holds 0 faults with that register's index. -/
theorem exec_mod_zero {d e : Fin 8} {s : State} (h : s.reg e = 0) :
    exec (.mod (regByte d) (regByte e)) s = .next (s.takeFault ⟨.divisionByZero, BitVec.ofNat 9 (regByte e).toNat⟩) := by
  change commit s (aluBinary .mod (regByte d) (regByte e) s) = _
  rw [aluBinary_regs, h, alu_mod_zero, aluWriteBack_fails, commit_error, aluFaultInfo]

/-- Settles O38: a remainder is a byte as it is; a divisor of 0 is MOD's fault. -/
theorem modGivesTheRemainderOrFaults : Obligations.ModGivesTheRemainderOrFaults := by
  unfold Obligations.ModGivesTheRemainderOrFaults
  refine ⟨fun d e s hz => ?remainder, fun d e s hz => ?fault⟩
  case remainder =>
    have hlt : (s.reg d).toNat % (s.reg e).toNat < 256 := (Nat.mod_le ..).trans_lt (s.reg d).isLt
    exact ⟨_, trunc8_ofNat_toNat_of_lt hlt, commit_aluBinary_value (alu_mod_of_ne _ hz)⟩
  case fault =>
    exact ⟨_, rfl, (toNat_byte_info _).trans (regByte_toNat e), exec_mod_zero hz⟩

/-- Settles O39: the ALU's answers are the bitwise operations on the two bytes. -/
theorem logicInstructionsWorkBitwise : Obligations.LogicInstructionsWorkBitwise := by
  unfold Obligations.LogicInstructionsWorkBitwise
  exact fun d e s => ⟨_, _, _, fun _ => BitVec.getLsbD_and, fun _ => BitVec.getLsbD_or, fun _ => BitVec.getLsbD_xor,
    commit_aluBinary_value rfl, commit_aluBinary_value rfl, commit_aluBinary_value rfl⟩

/-- NOT on a register. -/
theorem exec_not_regByte (d : Fin 8) (s : State) :
    exec (.not (regByte d)) s = .next ((s.setReg d (~~~ s.reg d)).advance .not) := by
  change commit s (aluUnary .not (regByte d) s) = _
  rw [aluUnary_reg, alu, aluWriteBack_value, commit_ok]

/-- Settles O40: the complement of a byte is 255 minus it. -/
theorem notComplementsTheRegister : Obligations.NotComplementsTheRegister := by
  unfold Obligations.NotComplementsTheRegister
  exact fun d s => ⟨_, BitVec.toNat_not, exec_not_regByte d s⟩

/-- A left shift by 8 or more leaves nothing of a byte's 8 bits. -/
theorem mul_two_pow_mod_256 (a : Nat) {n : Nat} (h : 8 ≤ n) : a * 2 ^ n % 256 = 0 := by
  have hdvd : 2 ^ 8 ∣ a * 2 ^ n := (Nat.pow_dvd_pow 2 h).mul_left a
  exact Nat.mod_eq_zero_of_dvd hdvd

/-- A right shift by 8 or more leaves nothing of a byte. -/
theorem div_two_pow_eq_zero {a n : Nat} (ha : a < 256) (h : 8 ≤ n) : a / 2 ^ n = 0 :=
  Nat.div_eq_of_lt (ha.trans_le (Nat.pow_le_pow_right Nat.two_pos h))

/-- Settles O41: shifting is multiplying or dividing by a power of 2, which 8 or more makes a multiple of 256. -/
theorem shiftsUseTheWholeAmount : Obligations.ShiftsUseTheWholeAmount := by
  unfold Obligations.ShiftsUseTheWholeAmount
  intro d e s
  have hd : (s.reg d).toNat < 256 := (s.reg d).isLt
  have hx : (trunc8 (((s.reg d).toNat <<< (s.reg e).toNat : Nat) : Int)).toNat =
      (s.reg d).toNat * 2 ^ (s.reg e).toNat % 256 := by rw [trunc8_ofNat_toNat, Nat.shiftLeft_eq]
  have hy : (trunc8 (((s.reg d).toNat >>> (s.reg e).toNat : Nat) : Int)).toNat =
      (s.reg d).toNat / 2 ^ (s.reg e).toNat := by
    rw [Nat.shiftRight_eq_div_pow, trunc8_ofNat_toNat_of_lt ((Nat.div_le_self ..).trans_lt hd)]
  refine ⟨_, _, hx, hy, fun h8 => ⟨?_, ?_⟩, commit_aluBinary_value rfl, commit_aluBinary_value rfl⟩
  · exact BitVec.eq_of_toNat_eq (hx.trans (mul_two_pow_mod_256 _ h8))
  · exact BitVec.eq_of_toNat_eq (hy.trans (div_two_pow_eq_zero hd h8))

/-- CMP on registers. -/
theorem exec_cmp_regByte (d e : Fin 8) (s : State) :
    exec (.cmp (regByte d) (regByte e)) s =
      .next ((s.setFlags (flagsOfComparison (s.reg d) (s.reg e))).advance .cmp) := by
  change commit s (aluBinary .cmp (regByte d) (regByte e) s) = _
  rw [aluBinary_regs, alu_cmp, aluWriteBack_flags, commit_ok]

/-- The bits from 3 up of a byte below 8 are clear. -/
theorem getLsbD_of_lt_eight {b : Byte} (h : b.toNat < 8) {n : Nat} (hn : 3 ≤ n) : b.getLsbD n = false :=
  Nat.testBit_lt_two_pow (h.trans_le (Nat.pow_le_pow_right Nat.two_pos hn))

/-- The eight bits that CMP leaves in FL (42_alu.md R96). -/
theorem flagsOfComparison_bits (a b : Byte) :
    (flagsOfComparison a b).getLsbD 0 = decide (a.toNat = b.toNat) ∧
      (flagsOfComparison a b).getLsbD 1 = decide (a.toNat > b.toNat) ∧
      (flagsOfComparison a b).getLsbD 2 = decide (a.toNat < b.toNat) ∧
      ∀ n, 3 ≤ n → (flagsOfComparison a b).getLsbD n = false := by
  obtain ⟨hc, hf⟩ | ⟨hc, hf⟩ | ⟨hc, hf⟩ := flagsOfComparison_cases a b
  · rw [hf]
    exact ⟨by simp [hc], by simp [hc], by simp [hc], fun n => getLsbD_of_lt_eight (by decide)⟩
  · rw [hf]
    exact ⟨by simp [hc.ne'], by simp [hc], by simp [hc.le], fun n => getLsbD_of_lt_eight (by decide)⟩
  · rw [hf]
    exact ⟨by simp [hc.ne], by simp [hc.le], by simp [hc], fun n => getLsbD_of_lt_eight (by decide)⟩

/-- Settles O42: the bits of the comparison, written to FL alone. -/
theorem cmpSetsExactlyOneFlag : Obligations.CmpSetsExactlyOneFlag := by
  unfold Obligations.CmpSetsExactlyOneFlag
  intro d e s
  obtain ⟨equal, greater, less, others⟩ := flagsOfComparison_bits (s.reg d) (s.reg e)
  exact ⟨_, equal, greater, less, others, exec_cmp_regByte d e s⟩

/-! ## The stack -/

/-- PUSH and CALL where SP is not 0: the byte is stored below SP, then PC is set. -/
theorem commit_pushByte_of_ne {s : State} (h : s.sp ≠ 0) (v : Byte) (setPc : State → State) :
    commit s (pushByte v s >>= fun t => .ok (setPc t)) =
      .next (setPc { s.setReg spIndex (s.sp - 1) with mem := s.mem.write (s.sp - 1).toNat v }) := by
  obtain ⟨-, hp⟩ | ⟨hz, -⟩ := pushByte_cases v s
  · rw [hp, ok_bind, commit_ok]
  · exact absurd hz h

/-- PUSH and CALL where SP is 0 (43_stack.md R99). -/
theorem commit_pushByte_of_eq {s : State} (h : s.sp = 0) (v : Byte) (setPc : State → State) :
    commit s (pushByte v s >>= fun t => .ok (setPc t)) = .next (s.takeFault ⟨.outOfRange .stack, 0⟩) := by
  obtain ⟨hz, -⟩ | ⟨-, hp⟩ := pushByte_cases v s
  · exact absurd h hz
  · rw [hp, error_bind, commit_error]

theorem exec_push_of_ne (d : Fin 8) {s : State} (h : s.sp ≠ 0) :
    exec (.push (regByte d)) s = .next
      (State.advance { s.setReg spIndex (s.sp - 1) with mem := s.mem.write (s.sp - 1).toNat (s.reg d) } .push) :=
  (commit_regOperand_regByte s d _).trans (commit_pushByte_of_ne h (s.reg d) (·.advance .push))

theorem exec_push_of_eq (d : Fin 8) {s : State} (h : s.sp = 0) :
    exec (.push (regByte d)) s = .next (s.takeFault ⟨.outOfRange .stack, 0⟩) :=
  (commit_regOperand_regByte s d _).trans (commit_pushByte_of_eq h (s.reg d) (·.advance .push))

/-- Settles O43: PUSH by the two answers of the shared store. -/
theorem pushStoresBelowSp : Obligations.PushStoresBelowSp := by
  unfold Obligations.PushStoresBelowSp
  exact ⟨fun d s h => exec_push_of_ne d h, fun d s h => ⟨_, rfl, rfl, exec_push_of_eq d h⟩⟩

theorem exec_call_of_ne (d : Fin 8) {s : State} (h : s.sp ≠ 0) :
    exec (.call (regByte d)) s = .next
      (State.jump { s.setReg spIndex (s.sp - 1) with mem := s.mem.write (s.sp - 1).toNat (returnAddress s) }
        (s.reg d)) :=
  (commit_regOperand_regByte s d _).trans (commit_pushByte_of_ne h (returnAddress s) (·.jump (s.reg d)))

theorem exec_call_of_eq (d : Fin 8) {s : State} (h : s.sp = 0) :
    exec (.call (regByte d)) s = .next (s.takeFault ⟨.outOfRange .stack, 0⟩) :=
  (commit_regOperand_regByte s d _).trans (commit_pushByte_of_eq h (returnAddress s) (·.jump (s.reg d)))

/-- From an address an instruction can be fetched at, the return address is a byte (44_control.md R103). -/
theorem returnAddress_toNat {s : State} (h : s.pc.toNat ≤ 253) : (returnAddress s).toNat = s.pc.toNat + 2 :=
  trunc8_ofNat_toNat_of_lt (show s.pc.toNat + 2 < 256 by omega)

/-- Settles O45: CALL by the two answers of the shared store. -/
theorem callStoresTheReturnAddress : Obligations.CallStoresTheReturnAddress := by
  unfold Obligations.CallStoresTheReturnAddress
  exact ⟨fun d s h hp => ⟨_, returnAddress_toNat hp, exec_call_of_ne d h⟩,
    fun d s h => ⟨_, rfl, rfl, exec_call_of_eq d h⟩⟩

/-- POP and RET where the SP to be raised is not 255: SP goes up, then PC is set. -/
theorem commit_spInc_of_ne {s u : State} (h : u.sp ≠ 255) (setPc : State → State) :
    commit s (spInc u >>= fun t => .ok (setPc t)) = .next (setPc (u.setReg spIndex (u.sp + 1))) := by
  obtain ⟨-, hi⟩ | ⟨hz, -⟩ := spInc_cases u
  · rw [hi, ok_bind, commit_ok]
  · exact absurd hz h

/-- POP and RET where the SP to be raised is 255 (43_stack.md R99). -/
theorem commit_spInc_of_eq {s u : State} (h : u.sp = 255) (setPc : State → State) :
    commit s (spInc u >>= fun t => .ok (setPc t)) = .next (s.takeFault ⟨.outOfRange .stack, 255⟩) := by
  obtain ⟨hz, -⟩ | ⟨-, hi⟩ := spInc_cases u
  · exact absurd h hz
  · rw [hi, error_bind, commit_error]

/-- POP and RET read the byte at SP first, which never faults. -/
theorem commit_memRead_sp (s : State) (f : Byte → Result State) :
    commit s (memRead s s.sp.toNat >>= f) = commit s (f (s.mem.read s.sp.toNat)) := by rw [memRead_byte, ok_bind]

/-- POP where SP, after the register is written, is not 255 (43_stack.md R101). -/
theorem exec_pop_of_ne {d : Fin 8} {s u : State} (hu : u = s.setReg d (s.mem.read s.sp.toNat)) (h : u.sp ≠ 255) :
    exec (.pop (regByte d)) s = .next ((u.setReg spIndex (u.sp + 1)).advance .pop) := by
  subst hu
  exact (commit_regOperand_regByte s d _).trans
    ((commit_memRead_sp s _).trans (commit_spInc_of_ne h (·.advance .pop)))

/-- POP where SP, after the register is written, is 255 (43_stack.md R101). -/
theorem exec_pop_of_eq {d : Fin 8} {s : State} (h : (s.setReg d (s.mem.read s.sp.toNat)).sp = 255) :
    exec (.pop (regByte d)) s = .next (s.takeFault ⟨.outOfRange .stack, 255⟩) :=
  (commit_regOperand_regByte s d _).trans ((commit_memRead_sp s _).trans (commit_spInc_of_eq h (·.advance .pop)))

/-- Of two writes to one register the second stands. -/
theorem setReg_setReg (s : State) (d : Fin 8) (v w : Byte) : (s.setReg d v).setReg d w = s.setReg d w := by
  simp [State.setReg]

/-- Settles O44: POP by the two answers of `sp_inc`, which reads the SP that the register write left. -/
theorem popLoadsFromSp : Obligations.PopLoadsFromSp := by
  unfold Obligations.PopLoadsFromSp
  refine ⟨fun d s hd h => ?other, fun s h => ?sp, fun d s h => ?fault⟩
  case other =>
    have hsp := setReg_sp_of_ne s d (s.mem.read s.sp.toNat) hd
    rw [exec_pop_of_ne rfl (hsp.symm ▸ h), hsp]
    rfl
  case sp =>
    have hsp : (s.setReg 7 (s.mem.read s.sp.toNat)).sp = s.mem.read s.sp.toNat := setReg_spIndex_sp ..
    rw [exec_pop_of_ne rfl (hsp.symm ▸ h), hsp]
    exact congrArg (fun t => Host.Outcome.next (State.advance t .pop)) (setReg_setReg ..)
  case fault =>
    refine ⟨_, rfl, rfl, exec_pop_of_eq ?_⟩
    exact (reg_setReg s d _ spIndex).trans ((if_congr eq_comm rfl rfl).trans h)

theorem exec_ret_of_ne {s : State} (h : s.sp ≠ 255) :
    exec .ret s = .next ((s.setReg spIndex (s.sp + 1)).jump (s.mem.read s.sp.toNat)) :=
  (commit_memRead_sp s _).trans (commit_spInc_of_ne h (·.jump (s.mem.read s.sp.toNat)))

theorem exec_ret_of_eq {s : State} (h : s.sp = 255) :
    exec .ret s = .next (s.takeFault ⟨.outOfRange .stack, 255⟩) :=
  (commit_memRead_sp s _).trans (commit_spInc_of_eq h (·.jump (s.mem.read s.sp.toNat)))

/-- Settles O46: RET by the two answers of `sp_inc`. -/
theorem retLoadsPcFromSp : Obligations.RetLoadsPcFromSp := by
  unfold Obligations.RetLoadsPcFromSp
  exact ⟨fun s h => exec_ret_of_ne h, fun s h => ⟨_, rfl, rfl, exec_ret_of_eq h⟩⟩

end Sys2Proof.Machine

/-! SUPPORT. Proofs for pairs of instructions: what a stack store hands to POP, RET and the next fetch (43_stack.md R101, 44_control.md R104, 20_memory.md R49), and LDI to SP (70_reset_and_hazards.md R129). -/

namespace Sys2Proof.Machine

/-! ## What PUSH and CALL leave on the stack -/

/-- The state after a stack store: SP down by one, the byte at the new SP, the other registers and FL as before. -/
structure Stacked (v : Byte) (s t : State) : Prop where
  sp : t.sp = s.sp - 1
  stored : t.mem.read t.sp.toNat = v
  regs : ∀ d, d ≠ spIndex → t.reg d = s.reg d
  fl : t.fl = s.fl

/-- The shared store of PUSH and CALL, whatever PC follows it. -/
theorem stacked_store {s : State} (hm : s.mem.wf = true) (v : Byte) (p : PcWord) :
    Stacked v s { s.setReg spIndex (s.sp - 1) with mem := s.mem.write (s.sp - 1).toNat v, pc := p } where
  sp := setReg_spIndex_sp s _
  stored := by
    change (s.mem.write (s.sp - 1).toNat v).read (s.setReg spIndex (s.sp - 1)).sp.toNat = v
    rw [setReg_spIndex_sp, Memory.read_write_same hm]
  regs _ hd := reg_setReg_of_ne s spIndex _ hd
  fl := rfl

/-- PUSH stacks its register. -/
theorem exec_push_stacked (d : Fin 8) {s : State} (hs : s.sp ≠ 0) (hm : s.mem.wf = true) :
    ∃ t, exec (.push (regByte d)) s = .next t ∧ Stacked (s.reg d) s t :=
  ⟨_, exec_push_of_ne d hs, stacked_store hm (s.reg d) _⟩

/-- CALL stacks its return address. -/
theorem exec_call_stacked (d : Fin 8) {s : State} (hs : s.sp ≠ 0) (hm : s.mem.wf = true) :
    ∃ t, exec (.call (regByte d)) s = .next t ∧ Stacked (returnAddress s) s t :=
  ⟨_, exec_call_of_ne d hs, stacked_store hm (returnAddress s) _⟩

/-- After a stack store `sp_inc` does not fault. -/
theorem Stacked.sp_ne_max {v : Byte} {s t : State} (h : Stacked v s t) (hs : s.sp ≠ 0) : t.sp ≠ 255 := by
  rw [h.sp]
  bv_omega

/-- After a stack store `sp_inc` gives the SP from before it. -/
theorem Stacked.sp_add_one {v : Byte} {s t : State} (h : Stacked v s t) : t.sp + 1 = s.sp := by
  rw [h.sp]
  bv_omega

/-! ## POP after PUSH, RET after CALL -/

/-- What POP into a register other than SP does: the register the byte at SP, SP up by one, the others as before. -/
theorem exec_pop_other {e : Fin 8} {t : State} (he : e ≠ spIndex) (hs : t.sp ≠ 255) :
    ∃ u, exec (.pop (regByte e)) t = .next u ∧ u.sp = t.sp + 1 ∧ u.reg e = t.mem.read t.sp.toNat ∧
      (∀ d, d ≠ e → d ≠ spIndex → u.reg d = t.reg d) ∧ u.fl = t.fl := by
  have hsp := setReg_sp_of_ne t e (t.mem.read t.sp.toNat) he
  refine ⟨_, exec_pop_of_ne rfl (hsp.symm ▸ hs), ?_, ?_, fun d hde hd => ?_, rfl⟩
  · rw [advance_sp, setReg_spIndex_sp, hsp]
  · rw [advance_reg, reg_setReg_of_ne _ _ _ he, reg_setReg_same]
  · rw [advance_reg, reg_setReg_of_ne _ _ _ hd, reg_setReg_of_ne _ _ _ hde]

/-- Settles O49: the byte at SP is the register that PUSH stacked, and SP goes up by as much as it went down. -/
theorem popAfterPushGivesTheRegister : Obligations.PopAfterPushGivesTheRegister := by
  unfold Obligations.PopAfterPushGivesTheRegister
  intro d e s he hs hm
  obtain ⟨t, ht, hst⟩ := exec_push_stacked d hs hm
  obtain ⟨u, hu, hsp, hreg, hothers, hfl⟩ := exec_pop_other he (hst.sp_ne_max hs)
  have hsp' : u.sp = s.sp := hsp.trans hst.sp_add_one
  refine ⟨t, u, ht, hu, hsp', hreg.trans hst.stored, fun x hx => ?_, hfl.trans hst.fl⟩
  by_cases hxs : x = spIndex
  · rw [hxs]
    exact hsp'
  · rw [hothers x (List.ne_of_not_mem_cons hx) hxs, hst.regs x hxs]

/-- Settles O50: RET reads the return address that CALL stacked, and SP goes up by as much as it went down. -/
theorem retAfterCallResumes : Obligations.RetAfterCallResumes := by
  unfold Obligations.RetAfterCallResumes
  intro d s t u hs hp hm h hsp hread
  obtain ⟨t', ht', hst⟩ := exec_call_stacked d hs hm
  obtain rfl : t = t' := by rw [h] at ht'; injection ht'
  have hu : u.sp ≠ 255 := hsp ▸ hst.sp_ne_max hs
  refine ⟨_, exec_ret_of_ne hu, ?_, ?_⟩
  · rw [jump_pc, toNat_zeroExtend_byte, hsp, hread, hst.stored, returnAddress_toNat hp]
  · rw [jump_sp, setReg_spIndex_sp, hsp, hst.sp_add_one]

/-! ## The next fetch -/

/-- A byte that stands at one of the fetch's three addresses is fetched, in its place. -/
theorem fetch_getElem? {s : State} {a : Nat} (hlo : s.pc.toNat ≤ a) (hhi : a ≤ s.pc.toNat + 2)
    (hp : s.pc.toNat + 2 ≤ 255) :
    ∃ f, fetch s = .ok f ∧ [f.b0, f.b1, f.b2][a - s.pc.toNat]? = some (s.mem.read a) := by
  refine ⟨_, fetch_of_le hp, ?_⟩
  obtain ⟨n, rfl⟩ := Nat.exists_eq_add_of_le hlo
  rw [Nat.add_sub_cancel_left]
  have hn : n ≤ 2 := by omega
  interval_cases n <;> rfl

/-- A stacked byte is what the next fetch reads there. -/
theorem Stacked.fetched {v : Byte} {s t : State} {p : PcWord} (h : Stacked v s t) (hs : s.sp ≠ 0)
    (hlo : p.toNat ≤ s.sp.toNat - 1) (hhi : s.sp.toNat - 1 ≤ p.toNat + 2) (hp : p.toNat + 2 ≤ 255) :
    ∃ f, fetch { t with pc := p } = .ok f ∧ [f.b0, f.b1, f.b2][s.sp.toNat - 1 - p.toNat]? = some v := by
  have hv : t.mem.read (s.sp.toNat - 1) = v := by rw [← h.stored, h.sp, toNat_sub_one hs]
  exact hv ▸ fetch_getElem? (s := { t with pc := p }) hlo hhi hp

/-- Settles O51: PUSH and CALL both stack a byte, and the fetch reads memory as it stands. -/
theorem storedBytesAreFetched : Obligations.StoredBytesAreFetched := by
  unfold Obligations.StoredBytesAreFetched
  refine fun d s p hs hm hlo hhi hp => ⟨?push, fun hpc => ?call⟩
  case push =>
    obtain ⟨t, ht, hst⟩ := exec_push_stacked d hs hm
    obtain ⟨f, hf, hv⟩ := hst.fetched hs hlo hhi hp
    exact ⟨t, f, ht, hf, hv⟩
  case call =>
    obtain ⟨t, ht, hst⟩ := exec_call_stacked d hs hm
    obtain ⟨f, hf, hv⟩ := hst.fetched hs hlo hhi hp
    exact ⟨t, f, _, ht, hf, hv, returnAddress_toNat hpc⟩

/-! ## LDI to SP -/

/-- Settles O52: LDI R7 writes SP and leaves the other registers, and PUSH stacks below the SP it finds. -/
theorem ldiToRegisterSevenMovesTheStack : Obligations.LdiToRegisterSevenMovesTheStack := by
  unfold Obligations.LdiToRegisterSevenMovesTheStack
  intro d imm s hd himm hm
  obtain ⟨t, ht, hsp, hreg, htm⟩ : ∃ t, exec (.ldi (regByte 7) imm) s = .next t ∧ t.sp = imm ∧ t.reg d = s.reg d ∧
      t.mem.wf = true :=
    ⟨_, ldiWritesTheImmediate 7 imm s, setReg_spIndex_sp s imm, reg_setReg_of_ne s 7 imm hd, hm⟩
  obtain ⟨u, hu, hst⟩ := exec_push_stacked d (hsp.symm ▸ himm) htm
  have husp : u.sp.toNat = imm.toNat - 1 := by rw [hst.sp, hsp, toNat_sub_one himm]
  exact ⟨t, u, ht, hsp, hu, husp, by rw [← husp, hst.stored, hreg]⟩

end Sys2Proof.Machine

/-! SUPPORT. Proofs for the frames: what each instruction leaves unchanged (41_data_io.md, 42_alu.md, 43_stack.md, 44_control.md). -/

namespace Sys2Proof.Machine

/-! ## What an instruction leaves unchanged, field by field -/

/-- Every instruction takes a fault or has its effect. -/
theorem takesFault_or_effect_of_exec {i : Instr} {s t : State} (h : exec i s = .next t) :
    (∃ r, t = s.takeFault r) ∨ Effect i s t := by
  cases exec_cases h with
  | badRegister b _ _ ht => exact .inl ⟨_, ht⟩
  | ownFault r _ _ ht => exact .inl ⟨r, ht⟩
  | effect _ he => exact .inr he

section
variable {i : Instr} {s t : State} (h : exec i s = .next t)
include h

theorem cfg_eq_of_exec : t.cfg = s.cfg := by
  obtain ⟨r, rfl⟩ | he := takesFault_or_effect_of_exec h
  · rfl
  · exact he.cfg_eq

theorem fl_eq_of_exec (hi : i.kind ≠ .cmp) : t.fl = s.fl := by
  by_contra hne
  obtain ⟨ra, rb, rfl⟩ := eq_cmp_of_exec_fl_ne h hne
  exact hi rfl

theorem out_eq_of_exec (hi : i.kind ≠ .prn) : t.out = s.out := by
  obtain ⟨r, rfl⟩ | he := takesFault_or_effect_of_exec h
  · rfl
  · obtain ho | ⟨d, rfl, -⟩ := he.out_eq
    · exact ho
    · exact absurd rfl hi

theorem reg_eq_of_exec {d : Fin 8} (hd : ¬ WritesReg i d) : t.reg d = s.reg d := by
  obtain ⟨r, rfl⟩ | he := takesFault_or_effect_of_exec h
  · rfl
  · exact he.reg_eq hd

theorem stKeptOrFaulted_of_exec (hi : i.kind ≠ .hlt) : stKeptOrFaulted s t := by
  obtain hf | he := takesFault_or_effect_of_exec h
  · exact .inr hf
  · have hne : i ≠ .hlt := fun heq => hi (heq ▸ rfl)
    exact .inl (by rw [he.st_eq, if_neg hne])

/-- Memory after an instruction: as before, or PUSH's or CALL's byte stored below SP. -/
theorem mem_eq_of_exec :
    t.mem = s.mem ∨
      (i.kind = .push ∨ i.kind = .call) ∧ s.sp ≠ 0 ∧ ∃ v, t.mem = s.mem.write (s.sp - 1).toNat v := by
  obtain ⟨r, rfl⟩ | he := takesFault_or_effect_of_exec h
  · exact .inl rfl
  · exact he.mem_eq

theorem sameMemory_of_exec (hi : i.kind ∉ [Kind.push, .call]) : sameMemory s t := by
  obtain hm | ⟨hk, -⟩ := mem_eq_of_exec h
  · exact fun a => by rw [hm]
  · exact absurd (by simpa using hk) hi

/-- All but the registers and PC, for the instructions that have no other field to write. -/
theorem frame_of_exec (hi : i.kind ∉ [Kind.cmp, .prn, .hlt, .push, .call]) :
    t.fl = s.fl ∧ sameMemory s t ∧ t.out = s.out ∧ t.cfg = s.cfg ∧ stKeptOrFaulted s t := by
  obtain ⟨hcmp, hprn, hhlt, hstores⟩ : i.kind ≠ .cmp ∧ i.kind ≠ .prn ∧ i.kind ≠ .hlt ∧ i.kind ∉ [Kind.push, .call] := by
    simpa using hi
  exact ⟨fl_eq_of_exec h hcmp, sameMemory_of_exec h hstores, out_eq_of_exec h hprn, cfg_eq_of_exec h,
    stKeptOrFaulted_of_exec h hhlt⟩

/-- The instructions that write no register. -/
theorem sameRegs_of_exec (hi : i.kind ∈ [Kind.hlt, .prn, .jmp, .jeq, .jne, .cmp]) : sameRegsExcept [] s t := by
  refine fun d _ => reg_eq_of_exec h ?_
  rintro (⟨hk, -⟩ | ⟨hk, -⟩)
  · exact (by decide : ∀ k ∈ [Kind.hlt, .prn, .jmp, .jeq, .jne, .cmp],
      k ∉ [Kind.ldi, .add, .sub, .mul, .mod, .and, .or, .xor, .not, .shl, .shr, .pop]) _ hi hk
  · exact (by decide : ∀ k ∈ [Kind.hlt, .prn, .jmp, .jeq, .jne, .cmp], k ∉ [Kind.push, .pop, .call, .ret]) _ hi hk

end

/-! ## The frames -/

/-- Settles O53: the destination is the first operand, and no other field is these instructions' to write. -/
theorem registerWritersChangeOneRegister : Obligations.RegisterWritersChangeOneRegister := by
  unfold Obligations.RegisterWritersChangeOneRegister
  intro ra rb s t i hi h
  have hhead : i.operands.head? = some ra := by fin_cases hi <;> rfl
  obtain ⟨hframe, hstack⟩ : i.kind ∉ [Kind.cmp, .prn, .hlt, .push, .call] ∧ i.kind ∉ [Kind.push, .pop, .call, .ret] := by
    fin_cases hi <;> simp [Instr.kind]
  refine ⟨fun d hd => reg_eq_of_exec h ?_, frame_of_exec h hframe⟩
  rintro (⟨-, hdest⟩ | ⟨hk, -⟩)
  · exact hd (Option.some.inj (hhead.symm.trans hdest))
  · exact hstack hk

/-- Settles O54: CMP writes FL and no other field. -/
theorem cmpChangesOnlyFlags : Obligations.CmpChangesOnlyFlags := by
  unfold Obligations.CmpChangesOnlyFlags
  exact fun ra rb s t h => ⟨sameRegs_of_exec h (by simp [Instr.kind]), sameMemory_of_exec h (by simp [Instr.kind]),
    out_eq_of_exec h Kind.noConfusion, cfg_eq_of_exec h, stKeptOrFaulted_of_exec h Kind.noConfusion⟩

/-- Settles O55: of the registers SP alone, and of memory at most the byte at the SP that `sp_dec` gives. -/
theorem stackStoresChangeOneByte : Obligations.StackStoresChangeOneByte := by
  unfold Obligations.StackStoresChangeOneByte
  intro ra s t i hi h
  have hk : i.kind = .push ∨ i.kind = .call := by fin_cases hi <;> simp [Instr.kind]
  refine ⟨fun d hd => reg_eq_of_exec h ?regs, fl_eq_of_exec h ?fl, out_eq_of_exec h ?out, cfg_eq_of_exec h,
    stKeptOrFaulted_of_exec h ?st, fun u hu a ha => ?stored, fun r hr => ?faulted⟩
  case regs =>
    rintro (⟨hw, -⟩ | ⟨-, rfl⟩)
    · obtain hk | hk := hk <;> simp [hk] at hw
    · exact hd (List.mem_singleton_self _)
  case fl | out | st => obtain hk | hk := hk <;> simp [hk]
  case stored =>
    obtain hm | ⟨-, -, v, hm⟩ := mem_eq_of_exec h
    · rw [hm]
    · obtain ⟨-, hd⟩ | ⟨-, hd⟩ := spDec_cases s
      · obtain rfl : s.setReg spIndex (s.sp - 1) = u := Except.ok.inj (hd.symm.trans hu)
        rw [setReg_spIndex_sp] at ha
        rw [hm, Memory.read_write_ne v ha]
      · cases hd.symm.trans hu
  case faulted =>
    obtain hm | ⟨-, hs, -⟩ := mem_eq_of_exec h
    · exact fun a => by rw [hm]
    · obtain ⟨-, hd⟩ | ⟨hz, -⟩ := spDec_cases s
      · cases hd.symm.trans hr
      · exact absurd hz hs

/-- Settles O56: POP's register and SP, or RET's SP, and no field but the registers and PC. -/
theorem stackLoadsStoreNothing : Obligations.StackLoadsStoreNothing := by
  unfold Obligations.StackLoadsStoreNothing
  refine ⟨fun ra s t h => ⟨fun d hra hd => reg_eq_of_exec h ?pop, frame_of_exec h (by simp [Instr.kind])⟩,
    fun s t h => ⟨fun d hd => reg_eq_of_exec h ?ret, frame_of_exec h (by decide)⟩⟩
  case pop =>
    rintro (⟨-, hdest⟩ | ⟨-, hsp⟩)
    · exact hra (Option.some.inj hdest)
    · exact hd hsp
  case ret =>
    rintro (⟨hw, -⟩ | ⟨-, hsp⟩)
    · exact absurd hw (by decide)
    · exact hd (List.mem_singleton.2 hsp)

/-- Settles O57: a jump writes no register and no field but PC. -/
theorem jumpsChangeOnlyPc : Obligations.JumpsChangeOnlyPc := by
  unfold Obligations.JumpsChangeOnlyPc
  intro ra s t i hi h
  refine ⟨sameRegs_of_exec h ?_, frame_of_exec h ?_⟩ <;> fin_cases hi <;> simp [Instr.kind]

/-- Settles O58: PRN writes no register, and HLT no field but ST. -/
theorem prnAndHltChangeNoRegister : Obligations.PrnAndHltChangeNoRegister := by
  unfold Obligations.PrnAndHltChangeNoRegister
  refine ⟨fun ra s t h => ?prn, fun s t h => ?hlt⟩
  case prn =>
    exact ⟨sameRegs_of_exec h (by simp [Instr.kind]), fl_eq_of_exec h Kind.noConfusion,
      sameMemory_of_exec h (by simp [Instr.kind]), cfg_eq_of_exec h, stKeptOrFaulted_of_exec h Kind.noConfusion⟩
  case hlt =>
    injection h with h
    subst h
    exact ⟨fun d _ => rfl, rfl, fun a => rfl, rfl, rfl, rfl⟩

end Sys2Proof.Machine
